-- ==== Sys2Proof/Word.lean ====
section
/-! DEFINITION. Word.lean: the byte of the ULID Codec Core and the small fixed sets of names that the
spec's notation uses (R8, R11, R24, R56). -/

namespace Sys2Proof

/-- A `Byte` of the spec: "an integer 0..255" (R8). Every register and every access is one byte wide
(R16, R42). -/
abbrev Byte := BitVec 8

/-- The input that `SRC` selects for `B64` (R56). -/
inductive Source where
  /-- `SRC` = 0: the bytes `IBUF[0..ILEN)`. -/
  | ibuf
  /-- `SRC` = 1: the bytes `OBUF[0..OLEN)`. -/
  | obuf
deriving DecidableEq, Repr

/-- The four errors (R24, R97). `OK` is not among them: it is the absence of an error. -/
inductive ErrorCode where
  /-- `INVALID_LENGTH` (R98). -/
  | invalidLength
  /-- `INVALID_CHARACTER` (R99). -/
  | invalidCharacter
  /-- `TIMESTAMP_OVERFLOW` (R100). -/
  | timestampOverflow
  /-- `ILLEGAL_COMMAND` (R101). -/
  | illegalCommand
deriving DecidableEq, Repr

/-- "A `Result` is `Ok(value)` or `Err(code)`" (R11). -/
inductive Result (α : Type) where
  | ok (value : α)
  | err (code : ErrorCode)
deriving DecidableEq, Repr

end Sys2Proof
end

