-- ==== Sys2Proof/Syntax.lean ====
section
/-! DEFINITION. Syntax.lean: the eight commands of UCC command set 1 (R55), one constructor per row of
spec/opcode_table.json. The command byte has no operand but `SRC` of `B64` (R59); every other operand
is a register that the host wrote before the command. -/

namespace Sys2Proof

/-- A legal command (R55). -/
inductive Instr where
  /-- `NOP`, no operation (R93). -/
  | nop
  /-- `DECODE`, 26 characters to 16 bytes (R82). -/
  | decode
  /-- `DECTS`, 10 characters to 6 bytes (R83). -/
  | dects
  /-- `DECRND`, 16 characters to 10 bytes (R84). -/
  | decrnd
  /-- `B64`, Base64-render the bytes that `SRC` selects (R91). -/
  | b64 (src : Source)
  /-- `LOOKUP`, read one LUT entry (R72). -/
  | lookup
  /-- `ALPHA`, read one alphabet character (R73). -/
  | alpha
  /-- `CLR`, soft reset (R94). -/
  | clr
deriving DecidableEq, Repr

end Sys2Proof
end

