-- ==== Sys2Proof/WellFormed.lean ====
section
/-! DEFINITION. WellFormed.lean: the three fields of the command format C8 (R54), and the three checks
that a command's fields must pass (R58), each refusing by a name of its own (R60). -/

namespace Sys2Proof

/-- The fields of the one format, `C8` (R54). -/
structure CommandFields where
  /-- `OP`, bits 3:0: the operation. -/
  op : BitVec 4
  /-- `SRC`, bit 4: the source select of `B64`. -/
  src : BitVec 1
  /-- `RSV`, bits 7:5: reserved, must be 0. -/
  rsv : BitVec 3
deriving DecidableEq, Repr

/-- Why a command byte is illegal: the three grounds of R60. -/
inductive Illegal where
  /-- `RSV` is not 0 (R57). -/
  | reservedBits
  /-- `OP` is one of 0x8–0xF (R55). -/
  | reservedOperation
  /-- `SRC` = 1 with an `OP` other than 0x4 (R56). -/
  | sourceNotAllowed
deriving DecidableEq, Repr

/-- The first check that the fields fail, or none when they are legal (R58). -/
def CommandFields.check (f : CommandFields) : Option Illegal :=
  if f.rsv ≠ 0 then some .reservedBits
  else if 7 < f.op.toNat then some .reservedOperation
  else if f.src ≠ 0 ∧ f.op ≠ 4 then some .sourceNotAllowed
  else none

/-- The fields form a legal command. -/
def CommandFields.wellFormed (f : CommandFields) : Bool := f.check.isNone

end Sys2Proof
end

