-- ==== Sys2Proof/Decode.lean ====
section
/-! DEFINITION. Decode.lean: the decoder of command bytes, total on every byte and refusing by name,
and after it the encoder (30_encoding.md, R54–R61). -/

namespace Sys2Proof

/-- `OP` = bits 3:0 (R54). -/
def opField (v : Byte) : BitVec 4 := v.extractLsb' 0 4

/-- `SRC` = bit 4 (R54). -/
def srcField (v : Byte) : BitVec 1 := v.extractLsb' 4 1

/-- `RSV` = bits 7:5 (R54). -/
def rsvField (v : Byte) : BitVec 3 := v.extractLsb' 5 3

/-- The fields of a command byte (R54). -/
def fieldsOf (v : Byte) : CommandFields :=
  { op := opField v, src := srcField v, rsv := rsvField v }

/-- The input that the bit `SRC` selects (R56). -/
def sourceOf (b : BitVec 1) : Source := if b = 0 then .ibuf else .obuf

/-- The operation that `OP` selects; none for the reserved values 0x8–0xF (R55). Only `B64` has a use
for the source. -/
def operation (op : BitVec 4) (src : Source) : Option Instr :=
  match op.toNat with
  | 0x0 => some .nop
  | 0x1 => some .decode
  | 0x2 => some .dects
  | 0x3 => some .decrnd
  | 0x4 => some (.b64 src)
  | 0x5 => some .lookup
  | 0x6 => some .alpha
  | 0x7 => some .clr
  | _ => none

/-- `SRC` may be 1 for `B64` alone (R56). -/
def takesSource : Instr → Bool
  | .b64 _ => true
  | .nop | .decode | .dects | .decrnd | .lookup | .alpha | .clr => false

/-- The command that a byte encodes, or the ground on which the byte is illegal (R55–R58, R60). -/
def decode (v : Byte) : Except Illegal Instr :=
  if rsvField v ≠ 0 then .error .reservedBits
  else
    match operation (opField v) (sourceOf (srcField v)) with
    | none => .error .reservedOperation
    | some i =>
      if srcField v ≠ 0 ∧ ¬ takesSource i then .error .sourceNotAllowed else .ok i

/-- `legal(v)` as R58 writes it. -/
def legal (v : Byte) : Bool :=
  v.extractLsb' 5 3 == 0
    && (v.extractLsb' 0 4).toNat ≤ 7
    && (v.getLsbD 4 == false || v.extractLsb' 0 4 == 4)

/-- What the decoder of a table word reads (the host numbers an instruction's bits from the least
significant bit of its first byte). A command is exactly one byte (R54), the lowest eight bits. -/
def decodeTableWord (nbits w : Nat) : Option Instr :=
  match decode (BitVec.ofNat 8 (w % 2 ^ nbits)) with
  | .ok i => some i
  | .error _ => none

/-- The bit `SRC` that selects a source (R56). -/
def Source.bit : Source → BitVec 1
  | .ibuf => 0
  | .obuf => 1

/-- The fields of a command, from the table of R55 with `SRC` as R56 and `RSV` as R57 say. -/
def Instr.fields : Instr → CommandFields
  | .nop => { op := 0x0, src := 0, rsv := 0 }
  | .decode => { op := 0x1, src := 0, rsv := 0 }
  | .dects => { op := 0x2, src := 0, rsv := 0 }
  | .decrnd => { op := 0x3, src := 0, rsv := 0 }
  | .b64 src => { op := 0x4, src := src.bit, rsv := 0 }
  | .lookup => { op := 0x5, src := 0, rsv := 0 }
  | .alpha => { op := 0x6, src := 0, rsv := 0 }
  | .clr => { op := 0x7, src := 0, rsv := 0 }

/-- A command is well formed when its fields pass the checks of R58. `Instr` has no ill-formed term:
its one operand is a source, and both sources are legal for `B64`. -/
def Instr.wellFormed (i : Instr) : Bool := i.fields.wellFormed

/-- The byte with the given fields, `{RSV, SRC, OP}` (R54). -/
def packFields (f : CommandFields) : Byte := f.rsv ++ f.src ++ f.op

/-- The command byte of an instruction (R54, R55). -/
def encode (i : Instr) : Byte := packFields i.fields

end Sys2Proof
end

