-- ==== Sys2Proof/Config.lean ====
section
/-! DEFINITION. Config.lean: the implementation parameters of the ULID Codec Core (R6, R7). The spec
leaves none of them open, so there is no free value here. -/

namespace Sys2Proof.Config

/-- `N_CHARS` (R6). -/
abbrev nChars : Nat := 26
/-- `TS_CHARS` (R6). -/
abbrev tsChars : Nat := 10
/-- `RND_CHARS` (R6). -/
abbrev rndChars : Nat := 16
/-- `SYM_BITS` (R6). -/
abbrev symBits : Nat := 5
/-- `TS_BYTES` (R6). -/
abbrev tsBytes : Nat := 6
/-- `RND_BYTES` (R6). -/
abbrev rndBytes : Nat := 10
/-- `OUT_BYTES` (R6). -/
abbrev outBytes : Nat := 16
/-- `LUT_ENTRIES` (R6). -/
abbrev lutEntries : Nat := 256
/-- `TS_MAX_FIRST` (R6). -/
abbrev tsMaxFirst : Nat := 7
/-- `SENTINEL`: the lookup-table value of an illegal byte (R7). -/
abbrev sentinel : Byte := 0xFF
/-- `ADDR_BITS` (R7). -/
abbrev addrBits : Nat := 8
/-- `DATA_BITS` (R7). -/
abbrev dataBits : Nat := 8
/-- `IBUF_SIZE`, also the Base64 input limit `B64_MAX_IN` (R7). -/
abbrev ibufSize : Nat := 32
/-- `OBUF_SIZE` (R7). -/
abbrev obufSize : Nat := 16
/-- `TBUF_SIZE` (R7). -/
abbrev tbufSize : Nat := 44

end Sys2Proof.Config
end

