-- ==== Sys2Proof/Machine/State.lean ====
section
/-! DEFINITION. Machine/State.lean: everything the spec gives the machine (R16, R33), the host's side as
plain data (R47, R53), the state after reset (R34), and the reasons a step can stop. -/

namespace Sys2Proof.Machine

/-- A register of the register space, buffer bytes by their index (R16, R37). -/
inductive Reg where
  | ibuf (i : Fin Config.ibufSize)
  | ilen
  | arg
  | cmd
  | status
  | res
  | olen
  | tlen
  | obuf (i : Fin Config.obufSize)
  | tbuf (i : Fin Config.tbufSize)
deriving DecidableEq, Repr

/-- A reset source that the host or the platform asserts between accesses (R112 (a), (b)). The third
source, `CLR`, is a command (R112 (c)). -/
inductive ResetSource where
  | powerOn
  | resetInput
deriving DecidableEq, Repr

/-- One interaction of the host with the block: "there is no access outside this table" (R52). -/
inductive HostAccess where
  /-- `MemRead(addr, 1)` (R10, R40). -/
  | read (addr : Byte)
  /-- `MemWrite(addr, 1, v)` (R10, R41). -/
  | write (addr : Byte) (v : Byte)
  /-- The host asserts reset (R52, R112). -/
  | reset (source : ResetSource)
deriving DecidableEq, Repr

/-- The state. The first ten fields are the architectural state, whole (R16, R33): the two ROMs are
constants (Machine/Tables.lean). The last two fields are the model's own and hold the outside world:
see log entries 1 and 2. -/
structure State where
  /-- `IBUF[0..31]`, the input buffer (R19). -/
  ibuf : Vector Byte Config.ibufSize
  /-- `ILEN`, the input length (R20). -/
  ilen : Byte
  /-- `ARG`, the scalar operand (R21). -/
  arg : Byte
  /-- `CMD`, the command register (R22). -/
  cmd : Byte
  /-- `STATUS`: `ERR` in bits 2:0, 0 in bits 6:3, `DONE` in bit 7 (R23). -/
  status : Byte
  /-- `RES`, the scalar result (R26). -/
  res : Byte
  /-- `OLEN`, the number of valid bytes of `OBUF` (R28). -/
  olen : Byte
  /-- `TLEN`, the number of valid characters of `TBUF` (R30). -/
  tlen : Byte
  /-- `OBUF[0..15]`, the decoded-output buffer (R27). -/
  obuf : Vector Byte Config.obufSize
  /-- `TBUF[0..43]`, the text-output buffer (R29). -/
  tbuf : Vector Byte Config.tbufSize
  /-- DESIGN CHOICE (log entry 1), safe: the host accesses still to be performed, first one first
  (R47, R53). -/
  pending : List HostAccess
  /-- DESIGN CHOICE (log entry 2), safe: the values the host's reads have returned, oldest first
  (R53). -/
  observed : List Byte
deriving DecidableEq, Repr

/-- The machine right after reset: every register holds 0x00 (R34), the block waits for the host's
first access (R114), and nothing has been read. -/
def State.reset : State :=
  { ibuf := Vector.replicate _ 0x00
    ilen := 0x00
    arg := 0x00
    cmd := 0x00
    status := 0x00
    res := 0x00
    olen := 0x00
    tlen := 0x00
    obuf := Vector.replicate _ 0x00
    tbuf := Vector.replicate _ 0x00
    pending := []
    observed := [] }

/-- The block never stops with a fault: every error completes its command and is recorded in
`STATUS.ERR` (R103), no access is refused (R38, R39, R108), and "no hang exists" (R119). So there is
no reason to list, and nothing raises one. Safe (log entry 4). -/
inductive Fault where
deriving DecidableEq, Repr

/-- Why a step has no meaning. -/
inductive Refusal where
  /-- Raised by an arm of `exec` whose instruction has no meaning yet, under its mnemonic. Safe. No arm
  raises it: every instruction has its meaning. -/
  | notModelled (mnemonic : String)
deriving DecidableEq, Repr

end Sys2Proof.Machine
end

