-- ==== Sys2Proof/Machine/Flags.lean ====
section
/-! DEFINITION. Machine/Flags.lean: the status register's fields and every value a command writes to it
(R23–R25). -/

namespace Sys2Proof.Machine

/-- The code of an error in `STATUS.ERR` (R24). -/
def errCode : ErrorCode → Byte
  | .invalidLength => 1
  | .invalidCharacter => 2
  | .timestampOverflow => 3
  | .illegalCommand => 4

/-- The status of a command that completed well: `0x80 | 0`, DONE = 1 and ERR = OK (R24, R25). -/
def statusOk : Byte := 0x80 ||| 0

/-- The status of a command that completed with an error: `0x80 | code(e)` (R24, R25). -/
def statusError (e : ErrorCode) : Byte := 0x80 ||| errCode e

/-- `STATUS[2:0]`, the outcome of the last command that sets `STATUS` (R23). -/
def State.errField (s : State) : BitVec 3 := s.status.extractLsb' 0 3

/-- `STATUS[6:3]`, reserved (R23). -/
def State.reservedField (s : State) : BitVec 4 := s.status.extractLsb' 3 4

/-- `STATUS[7]`, `DONE` (R25). -/
def State.done (s : State) : Bool := s.status.getLsbD 7

end Sys2Proof.Machine
end

