-- ==== Sys2Proof/Machine/Operands.lean ====
section
/-! DEFINITION. Machine/Operands.lean: the operands a command reads (R59). -/

namespace Sys2Proof.Machine

/-- `input(n)` is `IBUF[0..n)` (41_decode.md section 2), the characters a decoder reads. -/
def State.input (n : Nat) (s : State) : List Byte := s.ibuf.toList.take n

/-- The bytes that `B64` renders: `IBUF[0..ILEN)` or `OBUF[0..OLEN)` (R56, R91). In a state with `OLEN`
above 16, which no run reaches (R35 (a)), the second is all of `OBUF`: DESIGN CHOICE, unsafe (log
entry 7). -/
def State.b64Input (src : Source) (s : State) : List Byte :=
  match src with
  | .ibuf => s.ibuf.toList.take s.ilen.toNat
  | .obuf => s.obuf.toList.take s.olen.toNat

end Sys2Proof.Machine
end

