-- ==== Sys2Proof/Machine/Ops.lean ====
section
/-! DEFINITION. Machine/Ops.lean: the register space (R36–R41), the writes that commands make to result
registers, reset, and completing a command with an error, which is this block's form of taking an
exception (R103). -/

namespace Sys2Proof.Machine

/-- The register at an address; none for the reserved addresses 0x27–0x2F and 0x6C–0xFF (R37). -/
def locate (a : Byte) : Option Reg :=
  if h : a.toNat < 0x20 then some (.ibuf ⟨a.toNat, h⟩)
  else if a = 0x20 then some .ilen
  else if a = 0x21 then some .arg
  else if a = 0x22 then some .cmd
  else if a = 0x23 then some .status
  else if a = 0x24 then some .res
  else if a = 0x25 then some .olen
  else if a = 0x26 then some .tlen
  else if h : 0x30 ≤ a.toNat ∧ a.toNat < 0x40 then
    some (.obuf ⟨a.toNat - 0x30, Nat.sub_lt_left_of_lt_add h.1 h.2⟩)
  else if h : 0x40 ≤ a.toNat ∧ a.toNat < 0x6C then
    some (.tbuf ⟨a.toNat - 0x40, Nat.sub_lt_left_of_lt_add h.1 h.2⟩)
  else none

/-- `addr(reg)`: the address of a register (R37, R62). -/
def Reg.addr : Reg → Byte
  | .ibuf i => 0x00 + BitVec.ofNat 8 i.val
  | .ilen => 0x20
  | .arg => 0x21
  | .cmd => 0x22
  | .status => 0x23
  | .res => 0x24
  | .olen => 0x25
  | .tlen => 0x26
  | .obuf i => 0x30 + BitVec.ofNat 8 i.val
  | .tbuf i => 0x40 + BitVec.ofNat 8 i.val

/-- The value of a register (R40). -/
def State.get (s : State) : Reg → Byte
  | .ibuf i => s.ibuf[i]
  | .ilen => s.ilen
  | .arg => s.arg
  | .cmd => s.cmd
  | .status => s.status
  | .res => s.res
  | .olen => s.olen
  | .tlen => s.tlen
  | .obuf i => s.obuf[i]
  | .tbuf i => s.tbuf[i]

/-- The value a host read returns: the register's, or 0x00 at a reserved address (R38, R40). -/
def State.hostRead (s : State) (a : Byte) : Byte :=
  match locate a with
  | some r => s.get r
  | none => 0x00

/-- The host's write to a register, as far as it only stores: an operand register or `CMD` takes the
byte (R41, R22), a read-only register keeps its value (R39). -/
def State.put (s : State) (r : Reg) (v : Byte) : State :=
  match r with
  | .ibuf i => { s with ibuf := s.ibuf.set i v }
  | .ilen => { s with ilen := v }
  | .arg => { s with arg := v }
  | .cmd => { s with cmd := v }
  | .status | .res | .olen | .tlen => s
  | .obuf _ | .tbuf _ => s

/-- A buffer of `n` bytes that holds `l` from index 0 and 0x00 past its end (R27, R29). -/
def padded (n : Nat) (l : List Byte) : Vector Byte n := Vector.ofFn fun i => l.getD i.val 0x00

/-- `RES <- v`, and the command completes well (R72, R73). -/
def State.setRes (s : State) (v : Byte) : State := { s with res := v, status := statusOk }

/-- A decoder's success: `OBUF` takes the bytes with zeros above them, `OLEN` their number, and the
command completes well (R27, R28, R82–R84). -/
def State.setDecoded (s : State) (n : Byte) (b : List Byte) : State :=
  { s with obuf := padded _ b, olen := n, status := statusOk }

/-- The renderer's result: `TBUF` takes the characters with zeros above them, `TLEN` their number, and
the command completes well (R29, R30, R91). -/
def State.setText (s : State) (t : List Byte) : State :=
  { s with tbuf := padded _ t, tlen := BitVec.ofNat 8 t.length, status := statusOk }

/-- The data error's effect on results: all of `OBUF` is zeroed and `OLEN` is 0 (R27, R28, R104). -/
def State.dropDecoded (s : State) : State := { s with obuf := padded _ [], olen := 0x00 }

/-- `raise Error(code)`: the command ends with that error (R10, R103). A data error (codes 1–3) drops
the decoded output and sets `STATUS`; `ILLEGAL_COMMAND` sets `STATUS` and changes nothing else
(R60, R101, R104). No trap is taken: nothing is saved, no mode changes, control does not move (R103),
and there is no return from an error (R105). -/
def State.raise (s : State) (e : ErrorCode) : State :=
  match e with
  | .invalidLength | .invalidCharacter | .timestampOverflow =>
    { s.dropDecoded with status := statusError e }
  | .illegalCommand => { s with status := statusError e }

/-- Reset: every register takes its reset value (R112, R34). The host's own program and what it has
read are no part of the block and stay (log entry 6). -/
def State.clear (s : State) : State :=
  { State.reset with pending := s.pending, observed := s.observed }

/-! ### The register space as a list of cells

The spec has no memory beside the registers (R36), so State holds none. The register space in the
canonical form of a memory is a view of State: log entry 3. -/

/-- What an unlisted address reads as: 0x00 (R38 for the reserved addresses, R34 after reset). -/
def Memory.unlisted : Byte := 0x00

/-- The canonical form: addresses strictly rising inside the register space, and no cell that holds
what an unlisted address reads as. -/
abbrev Memory.wf (m : List Host.Cell) : Prop :=
  (m.map Prod.fst).Pairwise (· < ·) ∧ ∀ c ∈ m, c.1 < 256 ∧ c.2 ≠ Memory.unlisted

/-- The byte at an address of a list of cells. -/
def Memory.read (m : List Host.Cell) (a : Byte) : Byte := (m.lookup a.toNat).getD Memory.unlisted

/-- The register space of a state (R37), in canonical form. -/
def State.cells (s : State) : List Host.Cell :=
  ((List.range 256).map fun n => (n, s.hostRead (BitVec.ofNat 8 n))).filter
    fun c => c.2 != Memory.unlisted

end Sys2Proof.Machine
end

