-- ==== Sys2Proof/Machine/Tables.lean ====
section
/-! DEFINITION. Machine/Tables.lean: the two ROMs, the membership predicate of the decoders, and the
commands that read the ROMs (40_tables.md). -/

namespace Sys2Proof.Machine

/-- `ALPHABET[0..31]`, the canonical alphabet (R64; log entry 10). -/
def alphabet : List Byte :=
  [0x30, 0x31, 0x32, 0x33, 0x34, 0x35, 0x36, 0x37] ++
  [0x38, 0x39, 0x41, 0x42, 0x43, 0x44, 0x45, 0x46] ++
  [0x47, 0x48, 0x4A, 0x4B, 0x4D, 0x4E, 0x50, 0x51] ++
  [0x52, 0x53, 0x54, 0x56, 0x57, 0x58, 0x59, 0x5A]

/-- `ALPHABET[i]`, used for i < 32 only (R64). -/
def alphabetAt (i : Nat) : Byte := alphabet.getD i 0x00

/-- `IsCanon(b)`: b is a canonical character, uppercase only (R65). -/
def isCanon (b : Byte) : Bool :=
  (0x30 ≤ b && b ≤ 0x39)
    || (0x41 ≤ b && b ≤ 0x48)
    || b == 0x4A || b == 0x4B
    || b == 0x4D || b == 0x4E
    || (0x50 ≤ b && b ≤ 0x54)
    || (0x56 ≤ b && b ≤ 0x5A)

/-- A row of the LUT with no symbol. -/
def lutEmptyRow : List Byte := List.replicate 16 Config.sentinel

/-- The digits' row, 3_ (R70). -/
def lutDigits : List Byte :=
  [0x00, 0x01, 0x02, 0x03, 0x04, 0x05, 0x06, 0x07] ++
  [0x08, 0x09, 0xFF, 0xFF, 0xFF, 0xFF, 0xFF, 0xFF]

/-- The letters' first row, 4_ and 6_ (R70). -/
def lutLettersAO : List Byte :=
  [0xFF, 0x0A, 0x0B, 0x0C, 0x0D, 0x0E, 0x0F, 0x10] ++
  [0x11, 0xFF, 0x12, 0x13, 0xFF, 0x14, 0x15, 0xFF]

/-- The letters' second row, 5_ and 7_ (R70). -/
def lutLettersPZ : List Byte :=
  [0x16, 0x17, 0x18, 0x19, 0x1A, 0xFF, 0x1B, 0x1C] ++
  [0x1D, 0x1E, 0x1F, 0xFF, 0xFF, 0xFF, 0xFF, 0xFF]

/-- The row of the LUT grid for `b[7:4]` (R70). -/
def lutRow (hi : Nat) : List Byte :=
  match hi with
  | 0x3 => lutDigits
  | 0x4 => lutLettersAO
  | 0x5 => lutLettersPZ
  | 0x6 => lutLettersAO
  | 0x7 => lutLettersPZ
  | _ => lutEmptyRow

/-- `LUT(b)`: the row is `b[7:4]` and the column `b[3:0]` (R66, R70). -/
def lut (b : Byte) : Byte := (lutRow (b.toNat / 16)).getD (b.toNat % 16) Config.sentinel

/-- The meaning of `LOOKUP` (R72). The sentinel is data, not an error. -/
def execLookup (s : State) : Host.Outcome State Fault Refusal := .next (s.setRes (lut s.arg))

/-- The meaning of `ALPHA` (R73). The index is not masked. -/
def execAlpha (s : State) : Host.Outcome State Fault Refusal :=
  if 32 ≤ s.arg.toNat then .next (s.raise .illegalCommand)
  else .next (s.setRes (alphabetAt s.arg.toNat))

end Sys2Proof.Machine
end

