-- ==== Sys2Proof/Machine/Base32.lean ====
section
/-! DEFINITION. Machine/Base32.lean: the bit-unpacker, the timestamp overflow validator, and the three
decode commands (41_decode.md). -/

namespace Sys2Proof.Machine

/-- `sym(b)` = `LUT(b)`, the symbol of a canonical character (R74). -/
def sym (b : Byte) : Nat := (lut b).toNat

/-- `val(s)`: the symbols packed most significant first (R74). -/
def symVal (s : List Nat) : Nat := s.foldl (fun acc x => acc * 32 + x) 0

/-- `be(n, v)`: n bytes, most significant first (R74). -/
def bigEndian (n v : Nat) : List Byte :=
  (List.range n).map fun k => BitVec.ofNat 8 (v / 256 ^ (n - 1 - k))

/-- `tsOverflow(s0)`, the timestamp overflow validator (R76). -/
def tsOverflow (s0 : Nat) : Bool := Config.tsMaxFirst < s0

/-- `decodeTs`, the Timestamp Decoder (R75, R77): the checks in the order of R102. -/
def decodeTs (t : List Byte) : Result (List Byte) :=
  if t.length ≠ Config.tsChars then .err .invalidLength
  else if ¬ t.all isCanon then .err .invalidCharacter
  else if tsOverflow ((t.map sym).getD 0 0) then .err .timestampOverflow
  else .ok (bigEndian Config.tsBytes (symVal (t.map sym)))

/-- `decodeRnd`, the Randomness Decoder (R78). -/
def decodeRnd (r : List Byte) : Result (List Byte) :=
  if r.length ≠ Config.rndChars then .err .invalidLength
  else if ¬ r.all isCanon then .err .invalidCharacter
  else .ok (bigEndian Config.rndBytes (symVal (r.map sym)))

/-- `decodeUlid`, the Top-level Decode (R81). -/
def decodeUlid (u : List Byte) : Result (List Byte) :=
  if u.length ≠ Config.nChars then .err .invalidLength
  else if ¬ u.all isCanon then .err .invalidCharacter
  else
    match decodeTs (u.take Config.tsChars) with
    | .err e => .err e
    | .ok ts =>
      match decodeRnd (u.drop Config.tsChars) with
      | .err e => .err e
      | .ok rnd => .ok (ts ++ rnd)

/-- The shape the three decode commands share (R82–R84): the length check on `ILEN`, then the pure
decoder on `IBUF[0..n)`, then the bytes and their number, or the error. -/
def runDecoder (n : Nat) (f : List Byte → Result (List Byte)) (olen : Byte) (s : State) : State :=
  match if s.ilen.toNat ≠ n then .err .invalidLength else f (s.input n) with
  | .ok b => s.setDecoded olen b
  | .err e => s.raise e

/-- The meaning of `DECODE` (R82). -/
def execDecode (s : State) : Host.Outcome State Fault Refusal :=
  .next (runDecoder Config.nChars decodeUlid 16 s)

/-- The meaning of `DECTS` (R83). -/
def execDects (s : State) : Host.Outcome State Fault Refusal :=
  .next (runDecoder Config.tsChars decodeTs 6 s)

/-- The meaning of `DECRND` (R84). -/
def execDecrnd (s : State) : Host.Outcome State Fault Refusal :=
  .next (runDecoder Config.rndChars decodeRnd 10 s)

end Sys2Proof.Machine
end

