-- ==== Sys2Proof/Machine/Base64.lean ====
section
/-! DEFINITION. Machine/Base64.lean: the Base64 renderer and the command `B64` (42_base64.md; the
alphabet and the padding are the spec's own general knowledge, log entry 10). -/

namespace Sys2Proof.Machine

/-- `B64A[i]` (R87): `A`–`Z`, `a`–`z`, `0`–`9`, `+`, `/`. -/
def b64Char (i : BitVec 6) : Byte :=
  if i.toNat < 26 then BitVec.ofNat 8 (0x41 + i.toNat)
  else if i.toNat < 52 then BitVec.ofNat 8 (0x61 + (i.toNat - 26))
  else if i.toNat < 62 then BitVec.ofNat 8 (0x30 + (i.toNat - 52))
  else if i.toNat = 62 then 0x2B
  else 0x2F

/-- The pad character `=` (R87). -/
def b64Pad : Byte := 0x3D

/-- The 24-bit group `w = (a << 16) | (b << 8) | c` (R88). -/
def b64Group (a b c : Byte) : BitVec 24 :=
  a.setWidth 24 <<< 16 ||| b.setWidth 24 <<< 8 ||| c.setWidth 24

/-- The character of the six bits of a group that start at bit `lo` (R88). -/
def b64Digit (w : BitVec 24) (lo : Nat) : Byte := b64Char (w.extractLsb' lo 6)

/-- `base64(d)`: each group of three bytes is four characters, and one or two bytes left over are
padded (R88). Total (R89). -/
def base64 : List Byte → List Byte
  | a :: b :: c :: rest =>
    [b64Digit (b64Group a b c) 18, b64Digit (b64Group a b c) 12,
      b64Digit (b64Group a b c) 6, b64Digit (b64Group a b c) 0] ++ base64 rest
  | [a, b] =>
    [b64Digit (b64Group a b 0) 18, b64Digit (b64Group a b 0) 12, b64Digit (b64Group a b 0) 6, b64Pad]
  | [a] => [b64Digit (b64Group a 0 0) 18, b64Digit (b64Group a 0 0) 12, b64Pad, b64Pad]
  | [] => []

/-- The meaning of `B64` (R91): `IBUF` holds no more than 32 bytes. -/
def execB64 (src : Source) (s : State) : Host.Outcome State Fault Refusal :=
  if src = .ibuf ∧ Config.ibufSize < s.ilen.toNat then .next (s.raise .illegalCommand)
  else .next (s.setText (base64 (s.b64Input src)))

end Sys2Proof.Machine
end

