-- ==== Sys2Proof/Machine/Control.lean ====
section
/-! DEFINITION. Machine/Control.lean: the two control commands (43_control.md). -/

namespace Sys2Proof.Machine

/-- The meaning of `NOP` (R93): the write has set `CMD`, and nothing else changes. -/
def execNop (s : State) : Host.Outcome State Fault Refusal := .next s

/-- The meaning of `CLR` (R94): the same as reset in every architectural respect (R112), so `CMD` too
reads 0x00 afterwards. -/
def execClr (s : State) : Host.Outcome State Fault Refusal := .next s.clear

end Sys2Proof.Machine
end

