-- ==== Sys2Proof/Machine/Dispatch.lean ====
section
/-! DEFINITION. Machine/Dispatch.lean: one arm per command. The state it is given already holds the
command byte in `CMD` (R22, R58). -/

namespace Sys2Proof.Machine

def exec (i : Instr) (s : State) : Host.Outcome State Fault Refusal :=
  match i with
  | .nop => Sys2Proof.Machine.execNop s
  | .decode => Sys2Proof.Machine.execDecode s
  | .dects => Sys2Proof.Machine.execDects s
  | .decrnd => Sys2Proof.Machine.execDecrnd s
  | .b64 src => Sys2Proof.Machine.execB64 src s
  | .lookup => Sys2Proof.Machine.execLookup s
  | .alpha => Sys2Proof.Machine.execAlpha s
  | .clr => Sys2Proof.Machine.execClr s

end Sys2Proof.Machine
end

