-- ==== Sys2Proof/Machine/HostPort.lean ====
section
/-! DEFINITION. Machine/HostPort.lean: performing the host's accesses, one at a time and in order (R40,
R41, R47). The stream of `CMD` writes is the instruction stream (R18). -/

namespace Sys2Proof.Machine

/-- `MemWrite(0x22, 1, v)`: `CMD <- v`, then the command, in one atomic step (R41, R116). An illegal
byte completes as `ILLEGAL_COMMAND` (R60), before the operation is chosen (R102). -/
def runCommand (v : Byte) (s : State) : Host.Outcome State Fault Refusal :=
  match decode v with
  | .ok i => exec i (s.put .cmd v)
  | .error _ => .next ((s.put .cmd v).raise .illegalCommand)

/-- A host write: a write to `CMD` runs a command, a write to another register stores at most the
byte, and a write to a reserved address is ignored (R38, R39, R41). -/
def performWrite (a v : Byte) (s : State) : Host.Outcome State Fault Refusal :=
  match locate a with
  | some .cmd => runCommand v s
  | some r => .next (s.put r v)
  | none => .next s

/-- A host read: the host gets the value, and the block's state stays as it is (R40). -/
def performRead (a : Byte) (s : State) : State :=
  { s with observed := s.observed ++ [s.hostRead a] }

/-- One access of the host (R52). Both reset sources have the same effect (R112). -/
def perform (x : HostAccess) (s : State) : Host.Outcome State Fault Refusal :=
  match x with
  | .read a => .next (performRead a s)
  | .write a v => performWrite a v s
  | .reset _ => .next s.clear

/-- The host's next access and the state without it; none when the program has ended (R53). -/
def takeAccess (s : State) : Option (HostAccess × State) :=
  match s.pending with
  | [] => none
  | x :: rest => some (x, { s with pending := rest })

/-- Between accesses the block does nothing architectural and waits (R53, R114). DEDUCED, safe (log
entry 5). -/
def idle (s : State) : State := s

/-- The accesses of a host program put behind those that are still pending (R53; log entry 1). -/
def State.load (prog : List HostAccess) (s : State) : State := { s with pending := s.pending ++ prog }

/-- The access that runs a command byte: `wr CMD, v` (R62, R63). -/
def commandWrite (v : Byte) : HostAccess := .write Reg.cmd.addr v

end Sys2Proof.Machine
end

