-- ==== Sys2Proof/Machine/Step.lean ====
section
/-! DEFINITION. Machine/Step.lean: one step performs one access of the host (R47, R53, R119). -/

namespace Sys2Proof.Machine

/-- One step: the host's next access, whole (R47, R116). With no access pending the block waits. -/
def step (s : State) : Host.Outcome State Fault Refusal :=
  match takeAccess s with
  | none => .next (idle s)
  | some (x, s') => perform x s'

/-- The state in which the host's very next access writes the command byte `w` to `CMD`, which is where
this block takes its next instruction from (R18, R41; log entry 1). A command is one byte (R54): the
lowest eight bits. -/
def State.withFetchWord (s : State) (nbits w : Nat) : State :=
  { s with pending := commandWrite (BitVec.ofNat 8 (w % 2 ^ nbits)) :: s.pending }

end Sys2Proof.Machine
end

