-- ==== Sys2Proof/Machine/HostAsm.lean ====
section
/-! DEFINITION. Machine/HostAsm.lean: the host's side of the interface as plain lists of accesses: the
host assembly (R62), its pseudo-instructions (R63), presenting a string (R52), and a wider bus (R42).
This is host software: no step of the block runs it. -/

namespace Sys2Proof.Machine

/-- The operand of `wr` and `rd`: a register name or a literal address `@0xNN` (R62). -/
inductive Target where
  | reg (r : Reg)
  | literal (a : Byte)
deriving DecidableEq, Repr

/-- The address that a target names (R62). -/
def Target.addr : Target → Byte
  | .reg r => r.addr
  | .literal a => a

/-- A line of host assembly (R62) or a pseudo-instruction (R63). -/
inductive AsmLine where
  | wr (t : Target) (v : Byte)
  | rd (t : Target)
  | nop
  | decode
  | dects
  | decrnd
  | b64 (src : Source)
  | lookup
  | alpha
  | clr
  | cmd (v : Byte)
  /-- `lookup <b>` -/
  | lookupOf (b : Byte)
  /-- `alpha <i>` -/
  | alphaOf (i : Byte)
  /-- `lds "<text>"`, the text as its character codes -/
  | lds (text : List Nat)
  /-- `ldb <b0> … <bn-1>` -/
  | ldb (bytes : List Byte)
deriving DecidableEq, Repr

/-- The byte that presents a character: its code if that is at most 0xFF, else 0xFF (R52, D3). -/
def charByte (c : Nat) : Byte := if c ≤ 0xFF then BitVec.ofNat 8 c else 0xFF

/-- Writes of bytes into `IBUF` from index 0 up, as many as `IBUF` holds (R63). -/
def ibufWrites (bytes : List Byte) : List HostAccess :=
  (bytes.take Config.ibufSize).zipIdx.map fun p => .write (BitVec.ofNat 8 p.2) p.1

/-- Presenting a string: its first 32 characters into `IBUF`, then min(length, 255) into `ILEN`
(R52, R63). -/
def ldsAccesses (text : List Nat) : List HostAccess :=
  ibufWrites (text.map charByte) ++ [.write Reg.ilen.addr (BitVec.ofNat 8 (min text.length 255))]

/-- Presenting a byte sequence; none when it has more than 32 bytes, which the host must not send
(R52, R63). -/
def ldbAccesses (bytes : List Byte) : Option (List HostAccess) :=
  if bytes.length ≤ Config.ibufSize then
    some (ibufWrites bytes ++ [.write Reg.ilen.addr (BitVec.ofNat 8 bytes.length)])
  else none

/-- The accesses that a line stands for (R62, R63). -/
def AsmLine.expand : AsmLine → Option (List HostAccess)
  | .wr t v => some [.write t.addr v]
  | .rd t => some [.read t.addr]
  | .nop => some [commandWrite 0x00]
  | .decode => some [commandWrite 0x01]
  | .dects => some [commandWrite 0x02]
  | .decrnd => some [commandWrite 0x03]
  | .b64 .ibuf => some [commandWrite 0x04]
  | .b64 .obuf => some [commandWrite 0x14]
  | .lookup => some [commandWrite 0x05]
  | .alpha => some [commandWrite 0x06]
  | .clr => some [commandWrite 0x07]
  | .cmd v => some [commandWrite v]
  | .lookupOf b => some [.write Reg.arg.addr b, commandWrite 0x05]
  | .alphaOf i => some [.write Reg.arg.addr i, commandWrite 0x06]
  | .lds text => some (ldsAccesses text)
  | .ldb bytes => ldbAccesses bytes

/-- A wider write of the platform's bus, split into byte writes in ascending address order (R42); none
when it would reach past the last address, of which the spec says nothing: DESIGN CHOICE, safe (log
entry 8). -/
def splitWrite (base : Byte) (bytes : List Byte) : Option (List HostAccess) :=
  if base.toNat + bytes.length ≤ 256 then
    some (bytes.zipIdx.map fun p => .write (base + BitVec.ofNat 8 p.2) p.1)
  else none

/-- A wider read of the platform's bus, split in the same way (R42; log entry 8). -/
def splitRead (base : Byte) (n : Nat) : Option (List HostAccess) :=
  if base.toNat + n ≤ 256 then
    some ((List.range n).map fun k => .read (base + BitVec.ofNat 8 k))
  else none

end Sys2Proof.Machine
end

