-- ==== Sys2Proof/Safety.lean ====
section
/-! DEFINITION. Safety.lean: the invariants of the register block (R35), and what a safe run is. -/

namespace Sys2Proof.Machine

/-- The unsigned number whose bytes are given most significant first (R44). -/
def bytesValue (b : List Byte) : Nat := b.foldl (fun acc x => acc * 256 + x.toNat) 0

/-- R35 (a): `OLEN` is 0, 6, 10 or 16, and `OBUF` is zero from `OLEN` up. -/
abbrev State.DecodedOk (s : State) : Prop :=
  s.olen ∈ ([0, 6, 10, 16] : List Byte) ∧
    ∀ i : Fin Config.obufSize, s.olen.toNat ≤ i.val → s.obuf[i] = 0

/-- R35 (b): `TLEN` is a multiple of 4 in 0..44, and `TBUF` is zero from `TLEN` up. -/
abbrev State.TextOk (s : State) : Prop :=
  s.tlen.toNat % 4 = 0 ∧ s.tlen.toNat ≤ Config.tbufSize ∧
    ∀ i : Fin Config.tbufSize, s.tlen.toNat ≤ i.val → s.tbuf[i] = 0

/-- R35 (c) and (d): the reserved bits are 0, `ERR` is at most 4, and `STATUS` is 0x00 while `DONE`
is 0. -/
abbrev State.StatusOk (s : State) : Prop :=
  s.reservedField = 0 ∧ s.errField.toNat ≤ 4 ∧ (s.done = false → s.status = 0x00)

/-- R35 (e): with `OLEN` = 16, `OBUF` is a Decoded ULID, that is, `decodeUlid` gives it for some string
(R13), and its timestamp fits in 48 bits. -/
def State.UlidOk (s : State) : Prop :=
  s.olen = 16 → (∃ u, decodeUlid u = .ok s.obuf.toList) ∧ bytesValue (s.obuf.toList.take 6) < 2 ^ 48

/-- The invariants of R35, together. -/
structure State.Inv (s : State) : Prop where
  decoded : s.DecodedOk
  text : s.TextOk
  status : s.StatusOk
  ulid : s.UlidOk

/-- A safe run: however many steps are taken, none stops with a fault or a refusal. -/
def State.Safe (s : State) : Prop := ∀ k, ∃ t, core.run k s = .next t

/-- The program has ended: no access is left (R53). -/
def State.finished (s : State) : Bool := s.pending.isEmpty

end Sys2Proof.Machine
end

