-- ==== Sys2Proof/Certificates/Slice0/Obligations.lean ====
section
/-! DEFINITION. Certificates/Slice0/Obligations.lean: what is claimed of the ULID Codec Core, from the
numbered rules of spec/. Nothing here is proved. No statement rests on a value the model chose, except
where its docstring names the log entry. -/

open Sys2Proof Sys2Proof.Machine

/-! ### Words the statements use -/

/-- The canonical alphabet as the string of R64. -/
def Sys2Proof.Claims.alphabetText : List Byte :=
  "0123456789ABCDEFGHJKMNPQRSTVWXYZ".toList.map fun c => BitVec.ofNat 8 c.toNat

/-- The Base64 alphabet as a string, in the order of the table of R87. -/
def Sys2Proof.Claims.base64Text : List Byte :=
  ("ABCDEFGHIJKLMNOPQRSTUVWXYZ".toList ++ "abcdefghijklmnopqrstuvwxyz".toList ++
    "0123456789+/".toList).map fun c => BitVec.ofNat 8 c.toNat

/-- The nine legal command bytes, as R58 lists them. -/
def Sys2Proof.Claims.legalBytes : List Byte := [0x00, 0x01, 0x02, 0x03, 0x04, 0x14, 0x05, 0x06, 0x07]

/-- The characters of `text` are all canonical. -/
abbrev Sys2Proof.Claims.Canonical (text : List Byte) : Prop := ∀ b ∈ text, isCanon b = true

/-- The first character is one of `'0'`..`'7'` (R82, R85 (b)). -/
abbrev Sys2Proof.Claims.StartsLow (text : List Byte) : Prop :=
  0x30 ≤ (text.getD 0 0).toNat ∧ (text.getD 0 0).toNat ≤ 0x37

/-- `trunc8` (R8). -/
abbrev Sys2Proof.Claims.trunc8 (v : Nat) : Byte := BitVec.ofNat 8 v

/-- The registers that a command may change, by address (R93, R82–R84, R91, R72, R73; `CLR` may change
all). -/
def Sys2Proof.Claims.writes : Instr → Byte → Bool
  | .nop, _ => false
  | .decode, a | .dects, a | .decrnd, a => a == 0x23 || a == 0x25 || (0x30 ≤ a && a ≤ 0x3F)
  | .b64 _, a => a == 0x23 || a == 0x26 || (0x40 ≤ a && a ≤ 0x6B)
  | .lookup, a | .alpha, a => a == 0x23 || a == 0x24
  | .clr, _ => true

open Sys2Proof.Claims

/-! ### Command encoding (30_encoding.md) -/

/-- R55, with words written out from R54: bits 7:5 are `RSV`, bit 4 is `SRC`, bits 3:0 are `OP`. -/
def Obligations.DecoderReadsWrittenCommandBytes : Prop :=
  decode 0b00000000#8 = .ok .nop ∧ decode 0b00000001#8 = .ok .decode ∧
  decode 0b00000010#8 = .ok .dects ∧ decode 0b00000011#8 = .ok .decrnd ∧
  decode 0b00000100#8 = .ok (.b64 .ibuf) ∧ decode 0b00010100#8 = .ok (.b64 .obuf) ∧
  decode 0b00000101#8 = .ok .lookup ∧ decode 0b00000110#8 = .ok .alpha ∧
  decode 0b00000111#8 = .ok .clr ∧
  decode 0b00001000#8 = .error .reservedOperation ∧
  decode 0b00010000#8 = .error .sourceNotAllowed ∧
  decode 0b00100000#8 = .error .reservedBits

/-- R54–R57: the decoder and the encoder agree in both directions, with `SRC` at both its values. -/
def Obligations.DecodeAndEncodeAgree : Prop :=
  (∀ i : Instr, i.wellFormed = true ∧ decode (encode i) = .ok i) ∧
    ∀ (v : Byte) (i : Instr), decode v = .ok i → encode i = v

/-- R58: `legal` holds of exactly nine bytes. Writing a legal byte to `CMD` runs the operation it
encodes; writing any other completes as `ILLEGAL_COMMAND`. -/
def Obligations.LegalBytesAreNineAndRunTheirOperation : Prop :=
  ∀ (v : Byte) (s : State),
    (legal v = true ↔ v ∈ legalBytes) ∧
    (legal v = true → ∃ i, decode v = .ok i ∧ encode i = v ∧
      perform (.write 0x22 v) s = exec i { s with cmd := v }) ∧
    (legal v = false → perform (.write 0x22 v) s = .next { s with cmd := v, status := 0x80 ||| 4 })

/-- R60: which bytes are illegal, how many, and that an illegal byte sets `CMD` and `STATUS` and
nothing else. -/
def Obligations.IllegalByteSetsOnlyCommandAndStatus : Prop :=
  (∀ v : Byte, legal v = false ↔
    (8 ≤ v.toNat % 16 ∨ v.toNat / 32 ≠ 0 ∨ (v.toNat / 16 % 2 = 1 ∧ v.toNat % 16 ≠ 4))) ∧
  ((List.range 256).filter fun n => legal (BitVec.ofNat 8 n) == false).length = 247 ∧
  ∀ (s : State) (v : Byte) (rest : List HostAccess),
    s.pending = .write 0x22 v :: rest → legal v = false →
    step s = .next { s with pending := rest, cmd := v, status := 0x84 }

/-- R61: 0x00 is the only byte whose write to `CMD` changes nothing but `CMD` in every state, and 0x10
is illegal. -/
def Obligations.NopIsTheOnlyByteWithoutEffect : Prop :=
  (∀ v : Byte, (∀ s : State, perform (.write 0x22 v) s = .next { s with cmd := v }) ↔ v = 0x00) ∧
    decode 0x10 = .error .sourceNotAllowed

/-! ### The step (20_memory.md, 70_reset_and_hazards.md) -/

/-- R41, R58: when the host's next access writes a byte that decodes to `i` to `CMD`, the step stores
the byte in `CMD` and runs `i`. Which access is next is the model's `pending` list (log entry 1). -/
def Obligations.StepRunsTheDecodedCommand : Prop :=
  ∀ (s : State) (v : Byte) (rest : List HostAccess) (i : Instr),
    s.pending = .write 0x22 v :: rest → decode v = .ok i →
    step s = exec i { s with pending := rest, cmd := v }

/-- The placed word is the next command to run (R18, log entry 1). -/
def Obligations.PlacedWordIsTheNextCommand : Prop :=
  ∀ (s : State) (nbits w : Nat) (i : Instr), decodeTableWord nbits w = some i →
    step (s.withFetchWord nbits w) = exec i { s with cmd := encode i }

/-- R40: a read returns the register's value, changes no state of the block, and is idempotent. What
the host got goes to the model's `observed` list (log entry 2). -/
def Obligations.ReadReturnsValueWithoutSideEffect : Prop :=
  (∀ (s : State) (r : Reg), s.hostRead r.addr = s.get r) ∧
  ∀ (s : State) (a : Byte) (rest : List HostAccess),
    (s.pending = .read a :: rest →
      step s = .next { s with pending := rest, observed := s.observed ++ [s.hostRead a] }) ∧
    (s.pending = .read a :: .read a :: rest → core.run 2 s = .next
      { s with pending := rest, observed := s.observed ++ [s.hostRead a, s.hostRead a] })

/-- R37: what stands at every address, with the buffers' bytes by index. -/
def Obligations.RegisterMapGivesEveryAddress : Prop :=
  ∀ s : State,
    (∀ i : Fin 32, s.hostRead (BitVec.ofNat 8 (0x00 + i.val)) = s.ibuf[i]) ∧
    s.hostRead 0x20 = s.ilen ∧ s.hostRead 0x21 = s.arg ∧ s.hostRead 0x22 = s.cmd ∧
    s.hostRead 0x23 = s.status ∧ s.hostRead 0x24 = s.res ∧ s.hostRead 0x25 = s.olen ∧
    s.hostRead 0x26 = s.tlen ∧
    (∀ i : Fin 16, s.hostRead (BitVec.ofNat 8 (0x30 + i.val)) = s.obuf[i]) ∧
    (∀ i : Fin 44, s.hostRead (BitVec.ofNat 8 (0x40 + i.val)) = s.tbuf[i]) ∧
    (∀ n : Nat, 0x27 ≤ n ∧ n ≤ 0x2F ∨ 0x6C ≤ n ∧ n ≤ 0xFF →
      s.hostRead (BitVec.ofNat 8 n) = 0x00) ∧
    ∀ a : Byte, State.reset.hostRead a = 0x00

/-- R38: a reserved address reads 0x00 and ignores writes; neither changes `STATUS` or anything else. -/
def Obligations.ReservedAddressesAreInert : Prop :=
  ∀ (s : State) (a v : Byte) (rest : List HostAccess),
    0x27 ≤ a.toNat ∧ a.toNat ≤ 0x2F ∨ 0x6C ≤ a.toNat →
    (s.pending = .read a :: rest →
      step s = .next { s with pending := rest, observed := s.observed ++ [0x00] }) ∧
    (s.pending = .write a v :: rest → step s = .next { s with pending := rest })

/-- R39: a write to a read-only register is ignored, changes no state and raises no error. -/
def Obligations.ReadOnlyRegistersIgnoreWrites : Prop :=
  ∀ (s : State) (a v : Byte) (rest : List HostAccess),
    0x23 ≤ a.toNat ∧ a.toNat ≤ 0x26 ∨ 0x30 ≤ a.toNat ∧ a.toNat ≤ 0x6B →
    s.pending = .write a v :: rest → step s = .next { s with pending := rest }

/-- R41, first point: a write to `IBUF[i]`, `ILEN` or `ARG` stores the byte and does nothing else; every
other address reads as before. -/
def Obligations.OperandWriteStoresItsByteOnly : Prop :=
  ∀ (s : State) (a v : Byte) (rest : List HostAccess),
    a.toNat ≤ 0x21 → s.pending = .write a v :: rest →
    ∃ t, step s = .next t ∧ t.hostRead a = v ∧ (∀ b, b ≠ a → t.hostRead b = s.hostRead b) ∧
      t.pending = rest ∧ t.observed = s.observed

/-- R22: a write of v sets `CMD` and runs v's command in the same step; afterwards `CMD` reads the byte,
legal or not, but 0x00 after `CLR`. Nothing but a write to `CMD` and reset changes it. -/
def Obligations.CommandRegisterReadsLastByte : Prop :=
  (∀ (s : State) (v : Byte) (rest : List HostAccess), s.pending = .write 0x22 v :: rest →
    ∃ t, step s = .next t ∧ t.hostRead 0x22 = (if v = 0x07 then 0x00 else v)) ∧
  (∀ (s t : State) (x : HostAccess) (rest : List HostAccess), s.pending = x :: rest →
    step s = .next t → (∀ v, x ≠ .write 0x22 v) → (∀ r, x ≠ .reset r) → t.cmd = s.cmd) ∧
  State.reset.cmd = 0x00

/-- R47: a read after a write to the same operand register returns the byte written, the write being
the latest access before it. -/
def Obligations.ReadAfterWriteReturnsTheByte : Prop :=
  ∀ (s : State) (a v : Byte) (rest : List HostAccess), a.toNat ≤ 0x21 →
    s.pending = .write a v :: .read a :: rest →
    ∃ t, core.run 2 s = .next t ∧ t.observed = s.observed ++ [v] ∧ t.pending = rest

/-- R116, R117: a read directly after a `CMD` write returns what the whole command left. -/
def Obligations.ReadAfterCommandSeesItsWholeResult : Prop :=
  ∀ (s t : State) (a v : Byte) (rest : List HostAccess),
    s.pending = .write 0x22 v :: .read a :: rest → step s = .next t →
    core.run 2 s = .next { t with pending := rest, observed := s.observed ++ [t.hostRead a] }

/-- The canonical list of cells (log entry 3) holds all registers: two states with the same cells agree
on every register (R37). -/
def Obligations.CellsDetermineEveryRegister : Prop :=
  ∀ s t : State, s.cells = t.cells → ∀ r : Reg, s.get r = t.get r

/-- R42: a wider write is split into byte writes at ascending addresses, one per byte and in the bytes'
order. A split that would pass the last address is none (log entry 8). -/
def Obligations.WiderWriteIsItsBytesInAscendingOrder : Prop :=
  ∀ (base : Byte) (bytes : List Byte) (l : List HostAccess), splitWrite base bytes = some l →
    l.length = bytes.length ∧
    ∀ (i : Nat) (v : Byte), bytes[i]? = some v →
      base.toNat + i < 256 ∧ l[i]? = some (.write (BitVec.ofNat 8 (base.toNat + i)) v)

/-- R63: each command's pseudo-instruction is one write to `CMD` of a byte that decodes to that command;
`lookup <b>` and `alpha <i>` write `ARG` first. -/
def Obligations.PseudoInstructionsWriteTheirCommand : Prop :=
  (∀ (line : AsmLine) (i : Instr),
    (line, i) ∈ [(AsmLine.nop, Instr.nop), (.decode, .decode), (.dects, .dects), (.decrnd, .decrnd),
      (.b64 .ibuf, .b64 .ibuf), (.b64 .obuf, .b64 .obuf), (.lookup, .lookup), (.alpha, .alpha),
      (.clr, .clr)] →
    ∃ v, line.expand = some [.write 0x22 v] ∧ decode v = .ok i) ∧
  (∀ v : Byte, (AsmLine.cmd v).expand = some [.write 0x22 v]) ∧
  ∀ b : Byte, (AsmLine.lookupOf b).expand = some [.write 0x21 b, .write 0x22 0x05] ∧
    (AsmLine.alphaOf b).expand = some [.write 0x21 b, .write 0x22 0x06]

/-! ### Reset -/

/-- R34: every register is 0x00 after reset, and the ROMs hold their fixed contents, as `LOOKUP` and
`ALPHA` read them. -/
def Obligations.ResetLeavesEveryRegisterZero : Prop :=
  (∀ i : Fin 32, State.reset.ibuf[i] = 0x00) ∧ State.reset.ilen = 0x00 ∧ State.reset.arg = 0x00 ∧
  State.reset.cmd = 0x00 ∧ State.reset.status = 0x00 ∧ State.reset.res = 0x00 ∧
  (∀ i : Fin 16, State.reset.obuf[i] = 0x00) ∧ State.reset.olen = 0x00 ∧
  (∀ i : Fin 44, State.reset.tbuf[i] = 0x00) ∧ State.reset.tlen = 0x00 ∧
  (∀ b : Byte, ∃ t, exec .lookup { State.reset with arg := b } = .next t ∧ t.res = lut b) ∧
  ∀ i : Fin 32, ∃ t, exec .alpha { State.reset with arg := BitVec.ofNat 8 i.val } = .next t ∧
    alphabetText[i.val]? = some t.res

/-- R112: from every state the two reset inputs and the `CLR` command leave the same registers, each at
its reset value. That the host's own lists stay, after power-on too, is no part of R112 but the model's
choice (log entry 6). -/
def Obligations.AllResetSourcesHaveTheSameEffect : Prop :=
  ∀ (s : State) (x : HostAccess) (rest : List HostAccess),
    x = .reset .powerOn ∨ x = .reset .resetInput ∨ x = .write 0x22 0x07 →
    s.pending = x :: rest →
    ∃ t, step s = .next t ∧ (∀ a, t.hostRead a = 0x00) ∧
      t = { State.reset with pending := rest, observed := s.observed }

/-- R94: `CLR` gives every register its reset value, `CMD` included; 0x17 and 0x27 are illegal. -/
def Obligations.ClrClearsEveryRegister : Prop :=
  (∀ s : State, exec .clr s = .next
    { ibuf := Vector.replicate 32 0, ilen := 0, arg := 0, cmd := 0, status := 0, res := 0, olen := 0,
      tlen := 0, obuf := Vector.replicate 16 0, tbuf := Vector.replicate 44 0,
      pending := s.pending, observed := s.observed }) ∧
  decode 0x07 = .ok .clr ∧ (∃ why, decode 0x17 = .error why) ∧ ∃ why, decode 0x27 = .error why

/-- R93: `NOP` changes nothing after the write has set `CMD` to 0x00; 0x10, 0x20, 0x40 and 0x80 give
`ILLEGAL_COMMAND`. -/
def Obligations.NopLeavesEverythingElse : Prop :=
  (∀ s : State, exec .nop s = .next s) ∧
  (∀ s : State, perform (.write 0x22 0x00) s = .next { s with cmd := 0x00 }) ∧
  ∀ (s : State) (v : Byte), v ∈ ([0x10, 0x20, 0x40, 0x80] : List Byte) →
    perform (.write 0x22 v) s = .next { s with cmd := v, status := 0x84 }

/-! ### Tables (40_tables.md) -/

/-- R64: `ALPHABET` is the 32 characters of the string, and `ALPHABET[i]` is the character whose symbol
value is i. -/
def Obligations.AlphabetIsTheCanonicalString : Prop :=
  alphabet = alphabetText ∧ alphabet.length = 32 ∧
    ∀ i : Fin 32, (lut (alphabetAt i.val)).toNat = i.val

/-- R65: `IsCanon` holds exactly of the 32 codes of the alphabet; it is case-sensitive. -/
def Obligations.CanonicalBytesAreTheAlphabet : Prop :=
  (∀ b : Byte, isCanon b = true ↔ b ∈ alphabetText) ∧
  (∀ b : Byte, 0x61 ≤ b.toNat ∧ b.toNat ≤ 0x7A → isCanon b = false) ∧
  (∀ b : Byte, b ∈ ([0x49, 0x4C, 0x4F, 0x55] : List Byte) → isCanon b = false) ∧
  ∀ b : Byte, 0x80 ≤ b.toNat → isCanon b = false

/-- R67–R69: the LUT gives i for `ALPHABET[i]`, i for its lowercase when it is a letter, and the
sentinel for each of the other 202 bytes. -/
def Obligations.LookupTableFollowsTheAlphabet : Prop :=
  (∀ i : Fin 32, lut (alphabetAt i.val) = BitVec.ofNat 8 i.val) ∧
  (∀ i : Fin 32, 10 ≤ i.val → lut (alphabetAt i.val + 0x20) = BitVec.ofNat 8 i.val) ∧
  (∀ b : Byte, (∀ i : Fin 32, b ≠ alphabetAt i.val ∧ (10 ≤ i.val → b ≠ alphabetAt i.val + 0x20)) →
    lut b = 0xFF) ∧
  ((List.range 256).filter fun n => lut (BitVec.ofNat 8 n) == 0xFF).length = 202

/-- R71 (a)–(e). -/
def Obligations.TableLawsHold : Prop :=
  (∀ b : Byte, isCanon b = true → (lut b).toNat < 32) ∧
  (∀ b : Byte, isCanon b = true → alphabetAt (lut b).toNat = b) ∧
  (∀ i j : Fin 32, alphabetAt i.val = alphabetAt j.val → i = j) ∧
  (∀ i : Fin 32, isCanon (alphabetAt i.val) = true) ∧
  (∀ b : Byte, ((lut b).toNat < 32 ∧ isCanon b = false) ↔
    ∃ i : Fin 32, 10 ≤ i.val ∧ b = alphabetAt i.val + 0x20) ∧
  ∀ b : Byte, isCanon b = true → ((lut b).toNat ≤ 7 ↔ 0x30 ≤ b.toNat ∧ b.toNat ≤ 0x37)

/-- R72: `LOOKUP` completes in every state; `RES` takes `LUT(ARG)`, a sentinel too, and `STATUS` 0x80,
and nothing else changes. -/
def Obligations.LookupReturnsTheTableEntry : Prop :=
  ∀ s : State, exec .lookup s = .next { s with res := lut s.arg, status := 0x80 ||| 0 }

/-- R73: with `ARG` below 32 `ALPHA` completes and `RES` takes the character at that index of the
alphabet; with `ARG` from 32 up, unmasked, `STATUS` is 0x84 and nothing else changes. -/
def Obligations.AlphaReturnsTheCharacter : Prop :=
  ∀ s : State,
    (s.arg.toNat < 32 → ∃ c, alphabetText[s.arg.toNat]? = some c ∧
      exec .alpha s = .next { s with res := c, status := 0x80 ||| 0 }) ∧
    (32 ≤ s.arg.toNat → exec .alpha s = .next { s with status := 0x84 })

/-! ### Base32 datapath (41_decode.md) -/

/-- R76: a symbol overflows exactly when it exceeds 7, that is when its two top bits are not zero; over
canonical characters, exactly for `8`, `9` and every letter. -/
def Obligations.TimestampOverflowRule : Prop :=
  (∀ x : Fin 32, (tsOverflow x.val = true ↔ 7 < x.val) ∧ (tsOverflow x.val = true ↔ x.val / 8 ≠ 0)) ∧
  ∀ b : Byte, isCanon b = true →
    (tsOverflow (sym b) = true ↔ b = 0x38 ∨ b = 0x39 ∨ 0x41 ≤ b.toNat)

/-- R77: symbol i occupies bits 49−5i..45−5i of V, the two bits above 2^48 are zero once the overflow
check passed, and no bit of the timestamp is lost: the decoded bytes are V, most significant first.
Every 48-bit number is some string's timestamp. -/
def Obligations.TimestampIsTheSymbolsValue : Prop :=
  (∀ s : List Nat, s.length = 10 → (∀ x ∈ s, x < 32) →
    symVal s < 2 ^ 50 ∧ ∀ i : Fin 10, symVal s / 2 ^ (45 - 5 * i.val) % 32 = s.getD i.val 0) ∧
  (∀ t b : List Byte, decodeTs t = .ok b →
    b.length = 6 ∧ bytesValue b = symVal (t.map sym) ∧ symVal (t.map sym) < 2 ^ 48) ∧
  ∀ v : Nat, v < 2 ^ 48 → ∃ t b, decodeTs t = .ok b ∧ bytesValue b = v

/-- R78: symbol j occupies bits 79−5j..75−5j. Sixteen canonical characters always decode, to the 80-bit
number their symbols write, with no overflow check; other lengths and other characters fail; every ten
bytes are some string's. -/
def Obligations.RandomnessIsTheSymbolsValue : Prop :=
  (∀ s : List Nat, s.length = 16 → (∀ x ∈ s, x < 32) →
    symVal s < 2 ^ 80 ∧ ∀ j : Fin 16, symVal s / 2 ^ (75 - 5 * j.val) % 32 = s.getD j.val 0) ∧
  (∀ r : List Byte, r.length ≠ 16 → decodeRnd r = .err .invalidLength) ∧
  (∀ r : List Byte, r.length = 16 → ¬ Canonical r → decodeRnd r = .err .invalidCharacter) ∧
  (∀ r : List Byte, r.length = 16 → Canonical r →
    ∃ b, decodeRnd r = .ok b ∧ b.length = 10 ∧ bytesValue b = symVal (r.map sym)) ∧
  ∀ b : List Byte, b.length = 10 → ∃ r, decodeRnd r = .ok b

/-- R79: the shift-and-OR equations of every timestamp byte and every randomness byte. -/
def Obligations.ByteEquationsOfTheDatapath : Prop :=
  (∀ s : List Nat, s.length = 10 → (∀ x ∈ s, x < 32) → s.getD 0 0 ≤ 7 →
    bigEndian 6 (symVal s) =
      [ trunc8 ((s.getD 0 0 <<< 5) ||| s.getD 1 0),
        trunc8 ((s.getD 2 0 <<< 3) ||| (s.getD 3 0 >>> 2)),
        trunc8 ((s.getD 3 0 <<< 6) ||| (s.getD 4 0 <<< 1) ||| (s.getD 5 0 >>> 4)),
        trunc8 ((s.getD 5 0 <<< 4) ||| (s.getD 6 0 >>> 1)),
        trunc8 ((s.getD 6 0 <<< 7) ||| (s.getD 7 0 <<< 2) ||| (s.getD 8 0 >>> 3)),
        trunc8 ((s.getD 8 0 <<< 5) ||| s.getD 9 0) ]) ∧
  ∀ r : List Nat, r.length = 16 → (∀ x ∈ r, x < 32) → ∀ g : Fin 2,
    (((bigEndian 10 (symVal r)).drop (5 * g.val)).take 5) =
      [ trunc8 ((r.getD (8 * g.val) 0 <<< 3) ||| (r.getD (8 * g.val + 1) 0 >>> 2)),
        trunc8 ((r.getD (8 * g.val + 1) 0 <<< 6) ||| (r.getD (8 * g.val + 2) 0 <<< 1) |||
          (r.getD (8 * g.val + 3) 0 >>> 4)),
        trunc8 ((r.getD (8 * g.val + 3) 0 <<< 4) ||| (r.getD (8 * g.val + 4) 0 >>> 1)),
        trunc8 ((r.getD (8 * g.val + 4) 0 <<< 7) ||| (r.getD (8 * g.val + 5) 0 <<< 2) |||
          (r.getD (8 * g.val + 6) 0 >>> 3)),
        trunc8 ((r.getD (8 * g.val + 6) 0 <<< 5) ||| r.getD (8 * g.val + 7) 0) ]

/-- R80: output byte k of a decoded string is bits 127−8k..120−8k of the 130-bit concatenation of all
26 symbols, whose two top bits are 0, and it depends only on the symbols ⌊(2+8k)/5⌋ to ⌊(9+8k)/5⌋. -/
def Obligations.UlidBitMap : Prop :=
  (∀ u b : List Byte, decodeUlid u = .ok b →
    symVal (u.map sym) < 2 ^ 128 ∧
    ∀ k : Fin 16, (b.getD k.val 0).toNat = symVal (u.map sym) / 2 ^ (120 - 8 * k.val) % 256) ∧
  ∀ u b u' b' : List Byte, decodeUlid u = .ok b → decodeUlid u' = .ok b' → ∀ k : Fin 16,
    (∀ i, (2 + 8 * k.val) / 5 ≤ i → i ≤ (9 + 8 * k.val) / 5 → u.getD i 0 = u'.getD i 0) →
    b.getD k.val 0 = b'.getD k.val 0

/-- R85 (b), (c), with R81's order of checks: exactly which strings decode, to 16 bytes, and which error
each other string gives. -/
def Obligations.UlidDecodesExactlyWhenValid : Prop :=
  ∀ u : List Byte,
    (u.length ≠ 26 → decodeUlid u = .err .invalidLength) ∧
    (u.length = 26 → ¬ Canonical u → decodeUlid u = .err .invalidCharacter) ∧
    (u.length = 26 → Canonical u → ¬ StartsLow u → decodeUlid u = .err .timestampOverflow) ∧
    (u.length = 26 → Canonical u → StartsLow u → ∃ b, decodeUlid u = .ok b ∧ b.length = 16)

/-- R85 (d): `decodeUlid` is a bijection from the strings it accepts onto all 16-byte values, 2^128 of
them. -/
def Obligations.UlidDecodingIsABijection : Prop :=
  (∀ b : List Byte, b.length = 16 → ∃! u : List Byte, decodeUlid u = .ok b) ∧
    (∀ u b : List Byte, decodeUlid u = .ok b → b.length = 16) ∧ 8 * 32 ^ 25 = 2 ^ 128

/-- R85 (e): a successful decode is the timestamp's bytes, then the randomness's, each as its own decoder
gives them. -/
def Obligations.UlidDecodeSplitsIntoItsSegments : Prop :=
  ∀ u b : List Byte, decodeUlid u = .ok b →
    ∃ ts rnd, decodeTs (u.take 10) = .ok ts ∧ decodeRnd (u.drop 10) = .ok rnd ∧ b = ts ++ rnd

/-- R85 (f): among accepted strings, byte-wise lexicographic order is the order of the decoded bytes. -/
def Obligations.UlidDecodingKeepsOrder : Prop :=
  ∀ u u' b b' : List Byte, decodeUlid u = .ok b → decodeUlid u' = .ok b' → (u < u' ↔ b < b')

/-! ### The decode commands -/

/-- R82: `DECODE` in every state. It completes on 26 canonical characters that start with `'0'`..`'7'`;
otherwise it ends with the first error that applies, with `OBUF` all zero and `OLEN` 0. Nothing but
`OBUF`, `OLEN` and `STATUS` changes. -/
def Obligations.DecodeCommandOutcome : Prop :=
  ∀ s : State,
    (s.ilen = 26 → Canonical (s.ibuf.toList.take 26) → StartsLow (s.ibuf.toList.take 26) →
      ∃ B : Vector Byte 16, decodeUlid (s.ibuf.toList.take 26) = .ok B.toList ∧
        exec .decode s = .next { s with obuf := B, olen := 16, status := 0x80 ||| 0 }) ∧
    (s.ilen ≠ 26 → exec .decode s = .next
      { s with obuf := Vector.replicate 16 0, olen := 0, status := 0x80 ||| 1 }) ∧
    (s.ilen = 26 → ¬ Canonical (s.ibuf.toList.take 26) → exec .decode s = .next
      { s with obuf := Vector.replicate 16 0, olen := 0, status := 0x80 ||| 2 }) ∧
    (s.ilen = 26 → Canonical (s.ibuf.toList.take 26) → ¬ StartsLow (s.ibuf.toList.take 26) →
      exec .decode s = .next
        { s with obuf := Vector.replicate 16 0, olen := 0, status := 0x80 ||| 3 })

/-- R83: `DECTS` in every state, in the same way: 10 characters to 6 bytes, and ten zeros above them. -/
def Obligations.DectsCommandOutcome : Prop :=
  ∀ s : State,
    (s.ilen = 10 → Canonical (s.ibuf.toList.take 10) → StartsLow (s.ibuf.toList.take 10) →
      ∃ (b : List Byte) (B : Vector Byte 16), b.length = 6 ∧ B.toList = b ++ List.replicate 10 0 ∧
        decodeTs (s.ibuf.toList.take 10) = .ok b ∧
        exec .dects s = .next { s with obuf := B, olen := 6, status := 0x80 ||| 0 }) ∧
    (s.ilen ≠ 10 → exec .dects s = .next
      { s with obuf := Vector.replicate 16 0, olen := 0, status := 0x80 ||| 1 }) ∧
    (s.ilen = 10 → ¬ Canonical (s.ibuf.toList.take 10) → exec .dects s = .next
      { s with obuf := Vector.replicate 16 0, olen := 0, status := 0x80 ||| 2 }) ∧
    (s.ilen = 10 → Canonical (s.ibuf.toList.take 10) → ¬ StartsLow (s.ibuf.toList.take 10) →
      exec .dects s = .next
        { s with obuf := Vector.replicate 16 0, olen := 0, status := 0x80 ||| 3 })

/-- R84: `DECRND` in every state: 16 canonical characters, whichever the first, to 10 bytes, and six
zeros above them. It never reports an overflow. -/
def Obligations.DecrndCommandOutcome : Prop :=
  ∀ s : State,
    (s.ilen = 16 → Canonical (s.ibuf.toList.take 16) →
      ∃ (b : List Byte) (B : Vector Byte 16), b.length = 10 ∧ B.toList = b ++ List.replicate 6 0 ∧
        decodeRnd (s.ibuf.toList.take 16) = .ok b ∧
        exec .decrnd s = .next { s with obuf := B, olen := 10, status := 0x80 ||| 0 }) ∧
    (s.ilen ≠ 16 → exec .decrnd s = .next
      { s with obuf := Vector.replicate 16 0, olen := 0, status := 0x80 ||| 1 }) ∧
    (s.ilen = 16 → ¬ Canonical (s.ibuf.toList.take 16) → exec .decrnd s = .next
      { s with obuf := Vector.replicate 16 0, olen := 0, status := 0x80 ||| 2 })

/-- R52, R63, R81: presenting any string of any length and any character codes, then writing `DECODE`,
leaves what `decodeUlid` gives of the string's own characters: the length clamped to 255 and the
characters above 0xFF presented as 0xFF change no outcome. Holding the host's program in `pending` is
the model's choice (log entry 1). -/
def Obligations.PresentedStringDecodesAsItself : Prop :=
  ∀ (text : List Nat) (s : State), s.pending = [] →
    ∃ t, core.run (ldsAccesses text ++ [commandWrite 0x01]).length
        (State.load (ldsAccesses text ++ [commandWrite 0x01]) s) = .next t ∧
      t.pending = [] ∧ t.observed = s.observed ∧
      match decodeUlid (text.map charByte) with
      | .ok b => t.obuf.toList = b ∧ t.olen = 16 ∧ t.status = 0x80
      | .err e => t.obuf = Vector.replicate 16 0 ∧ t.olen = 0 ∧ t.status = statusError e

/-! ### Base64 (42_base64.md) -/

/-- R87: the 64 characters in order, and the pad, which is none of them. -/
def Obligations.Base64AlphabetTable : Prop :=
  base64Text.length = 64 ∧ (∀ i : BitVec 6, base64Text[i.toNat]? = some (b64Char i)) ∧
    b64Pad = 0x3D ∧ b64Pad ∉ base64Text ∧ 0x2D ∉ base64Text ∧ 0x5F ∉ base64Text

/-- R88: each group of three bytes is the four digits of its 24-bit number in base 64, two bytes left
over are the first three digits and one pad, one byte is the first two digits and two pads. -/
def Obligations.Base64DigitsOfEachGroup : Prop :=
  base64 [] = [] ∧
  (∀ (a b c : Byte) (rest : List Byte), ∃ i j k l : BitVec 6,
    base64 (a :: b :: c :: rest) = b64Char i :: b64Char j :: b64Char k :: b64Char l :: base64 rest ∧
    i.toNat * 64 ^ 3 + j.toNat * 64 ^ 2 + k.toNat * 64 + l.toNat =
      a.toNat * 2 ^ 16 + b.toNat * 2 ^ 8 + c.toNat) ∧
  (∀ a b : Byte, ∃ i j k : BitVec 6, base64 [a, b] = [b64Char i, b64Char j, b64Char k, 0x3D] ∧
    i.toNat * 64 ^ 3 + j.toNat * 64 ^ 2 + k.toNat * 64 = a.toNat * 2 ^ 16 + b.toNat * 2 ^ 8) ∧
  ∀ a : Byte, ∃ i j : BitVec 6, base64 [a] = [b64Char i, b64Char j, 0x3D, 0x3D] ∧
    i.toNat * 64 ^ 3 + j.toNat * 64 ^ 2 = a.toNat * 2 ^ 16

/-- R90: the output's length and its number of pads; 16 bytes give 24 characters ending in `==`, and 32
bytes 44 ending in `=`. -/
def Obligations.Base64LengthAndPadding : Prop :=
  (∀ d : List Byte, (base64 d).length = 4 * ((d.length + 2) / 3) ∧
    (base64 d).count 0x3D = (3 - d.length % 3) % 3) ∧
  (∀ d : List Byte, d.length = 16 → (base64 d).length = 24 ∧ (base64 d).drop 22 = [0x3D, 0x3D]) ∧
  ∀ d : List Byte, d.length = 32 → (base64 d).length = 44 ∧ (base64 d).drop 43 = [0x3D]

/-- R92: `base64` is injective, its output is of the alphabet and the pad, with the pad only in the last
two positions, and it can be inverted on its image. -/
def Obligations.Base64IsInvertible : Prop :=
  (∀ d d' : List Byte, base64 d = base64 d' → d = d') ∧
  (∀ (d : List Byte) (i : Nat) (c : Byte), (base64 d)[i]? = some c →
    c ∈ base64Text ∨ (c = 0x3D ∧ (base64 d).length ≤ i + 2)) ∧
  ∃ inverse : List Byte → List Byte, ∀ d, inverse (base64 d) = d

/-- R91: `B64` from `IBUF` with at most 32 bytes, and from `OBUF` with `OLEN` at most 16 (R35 (a)),
completes: `TBUF` takes the text with zeros above it, `TLEN` its length 4·⌈n/3⌉, and nothing but
these and `STATUS` changes. From `IBUF` with more than 32 bytes only `STATUS` changes, to 0x84. -/
def Obligations.Base64CommandOutcome : Prop :=
  ∀ s : State,
    (s.ilen.toNat ≤ 32 → ∃ T : Vector Byte 44,
      T.toList = base64 (s.ibuf.toList.take s.ilen.toNat) ++
        List.replicate (44 - 4 * ((s.ilen.toNat + 2) / 3)) 0 ∧
      exec (.b64 .ibuf) s = .next { s with
        tbuf := T, tlen := BitVec.ofNat 8 (4 * ((s.ilen.toNat + 2) / 3)), status := 0x80 ||| 0 }) ∧
    (s.olen.toNat ≤ 16 → ∃ T : Vector Byte 44,
      T.toList = base64 (s.obuf.toList.take s.olen.toNat) ++
        List.replicate (44 - 4 * ((s.olen.toNat + 2) / 3)) 0 ∧
      exec (.b64 .obuf) s = .next { s with
        tbuf := T, tlen := BitVec.ofNat 8 (4 * ((s.olen.toNat + 2) / 3)), status := 0x80 ||| 0 }) ∧
    (32 < s.ilen.toNat → exec (.b64 .ibuf) s = .next { s with status := 0x84 })

/-- R95, R56: the two commands `DECODE`, then `B64` with `SRC` = 1, leave the Base64 text of the decoded
string, 24 characters ending in `==`; after a decode that failed, for whatever reason, they leave the
empty text with `STATUS` 0x80 (R91). -/
def Obligations.DecodeThenRenderGivesItsText : Prop :=
  ∀ (s : State) (rest : List HostAccess),
    s.pending = .write 0x22 0x01 :: .write 0x22 0x14 :: rest →
    ∃ t, core.run 2 s = .next t ∧ t.pending = rest ∧ t.status = 0x80 ∧
      match if s.ilen = 26 then decodeUlid (s.ibuf.toList.take 26) else .err .invalidLength with
      | .ok b => t.obuf.toList = b ∧ t.olen = 16 ∧ t.tlen = 24 ∧
          t.tbuf.toList = base64 b ++ List.replicate 20 0 ∧ (base64 b).drop 22 = [0x3D, 0x3D]
      | .err _ => t.olen = 0 ∧ t.tlen = 0 ∧ t.tbuf = Vector.replicate 44 0

/-! ### Rules of the whole machine -/

/-- R35 at reset. -/
def Obligations.InvariantsHoldAtReset : Prop := State.reset.Inv

/-- R35: every step, whatever the host's access, keeps the invariants (a) to (e), from every state that
has them. -/
def Obligations.EveryStepKeepsTheInvariants : Prop :=
  ∀ s t : State, s.Inv → step s = .next t → t.Inv

/-- R103, R119: no step ever stops: every state has a next state. -/
def Obligations.EveryRunIsSafe : Prop := ∀ s : State, s.Safe

/-- R119, R47: a program of k accesses ends after exactly k steps, one access a step in the host's order,
and the host has got one byte per read. The lists `pending` and `observed` are the model's (log entries
1 and 2), and so is that the accesses after a reset among them, power-on too, go on (log entry 6). -/
def Obligations.ProgramEndsAfterItsAccesses : Prop :=
  ∀ (s : State) (k : Nat), k ≤ s.pending.length →
    ∃ t, core.run k s = .next t ∧ t.pending = s.pending.drop k ∧
      t.observed.length = s.observed.length +
        ((s.pending.take k).filter fun x => match x with
          | .read _ => true
          | .write _ _ | .reset _ => false).length

/-- R118: which access can change which register, reset and `CLR` apart; every command but `NOP` writes
`STATUS`. -/
def Obligations.ResultsPersistUntilRewritten : Prop :=
  ∀ (s t : State) (x : HostAccess) (rest : List HostAccess), s.pending = x :: rest →
    step s = .next t → (∀ r, x ≠ .reset r) → x ≠ .write 0x22 0x07 →
    (t.obuf ≠ s.obuf ∨ t.olen ≠ s.olen → x ∈ ([0x01, 0x02, 0x03].map (.write 0x22) : List HostAccess)) ∧
    (t.tbuf ≠ s.tbuf ∨ t.tlen ≠ s.tlen → x ∈ ([0x04, 0x14].map (.write 0x22) : List HostAccess)) ∧
    (t.res ≠ s.res → x ∈ ([0x05, 0x06].map (.write 0x22) : List HostAccess)) ∧
    (t.status ≠ s.status → ∃ v, v ≠ 0x00 ∧ x = .write 0x22 v) ∧
    (∀ v, v ≠ 0x00 → x = .write 0x22 v → t.done = true) ∧
    (t.ibuf ≠ s.ibuf ∨ t.ilen ≠ s.ilen ∨ t.arg ≠ s.arg → ∃ a v, x = .write a v ∧ a.toNat ≤ 0x21)

/-- R25: every completion but `NOP`'s and `CLR`'s sets `DONE`, an illegal byte's too; `NOP` keeps it;
only reset and `CLR` clear it, and no other access changes it. -/
def Obligations.DoneLatchesUntilReset : Prop :=
  ∀ (s : State) (x : HostAccess) (rest : List HostAccess), s.pending = x :: rest →
    ∃ t, step s = .next t ∧
      (∀ v, x = .write 0x22 v → v ≠ 0x00 → v ≠ 0x07 → t.done = true) ∧
      (x = .write 0x22 0x00 → t.done = s.done) ∧
      (x = .write 0x22 0x07 → t.done = false) ∧
      (∀ r, x = .reset r → t.done = false) ∧
      ((∀ v, x ≠ .write 0x22 v) → (∀ r, x ≠ .reset r) → t.done = s.done)

/-- R102: `STATUS` after a write of any byte to `CMD` in any state: the first error in the order of
priority, or OK; `NOP` keeps it and `CLR` clears it. -/
def Obligations.StatusFollowsTheErrorPriority : Prop :=
  ∀ (s : State) (v : Byte) (rest : List HostAccess), s.pending = .write 0x22 v :: rest →
    ∃ t, step s = .next t ∧ t.status =
      if legal v = false then 0x84
      else if v = 0x00 then s.status
      else if v = 0x07 then 0x00
      else if v = 0x06 ∧ 32 ≤ s.arg.toNat ∨ v = 0x04 ∧ 32 < s.ilen.toNat then 0x84
      else if v = 0x01 ∧ s.ilen ≠ 26 ∨ v = 0x02 ∧ s.ilen ≠ 10 ∨ v = 0x03 ∧ s.ilen ≠ 16 then 0x81
      else if v ∈ ([0x01, 0x02, 0x03] : List Byte) ∧ ¬ Canonical (s.ibuf.toList.take s.ilen.toNat) then 0x82
      else if v ∈ ([0x01, 0x02] : List Byte) ∧ ¬ StartsLow (s.ibuf.toList.take s.ilen.toNat) then 0x83
      else 0x80

/-- R97: which error codes each command can leave in `STATUS.ERR`. -/
def Obligations.ErrorCodesOfEachCommand : Prop :=
  ∀ s t : State,
    (exec .decode s = .next t → t.errField.toNat ∈ [0, 1, 2, 3]) ∧
    (exec .dects s = .next t → t.errField.toNat ∈ [0, 1, 2, 3]) ∧
    (exec .decrnd s = .next t → t.errField.toNat ∈ [0, 1, 2]) ∧
    (∀ src, exec (.b64 src) s = .next t → t.errField.toNat ∈ [0, 4]) ∧
    (exec (.b64 .obuf) s = .next t → t.errField.toNat = 0) ∧
    (exec .alpha s = .next t → t.errField.toNat ∈ [0, 4]) ∧
    (exec .lookup s = .next t → t.errField.toNat = 0)

/-- R104: a command that ends with a data error leaves `OBUF` all zero and `OLEN` 0; one that ends as
`ILLEGAL_COMMAND` leaves every data register as it was. -/
def Obligations.NoErrorLeavesAPartialResult : Prop :=
  ∀ (s t : State) (v : Byte) (rest : List HostAccess), s.pending = .write 0x22 v :: rest → v ≠ 0x00 →
    step s = .next t →
    (t.errField.toNat ∈ [1, 2, 3] → (∀ i : Fin 16, t.obuf[i] = 0) ∧ t.olen = 0) ∧
    (t.errField.toNat = 4 → t = { s with pending := rest, cmd := v, status := 0x84 })

/-- R59: an outcome depends only on the operands the command reads. Two states that agree on a command's
operands get the same results from it: `IBUF` at and above the listed range, the other registers and
the earlier `STATUS` never matter. -/
def Obligations.UnreadRegistersNeverMatter : Prop :=
  ∀ s s' t t' : State,
    (∀ i n, (i, n) ∈ [(Instr.decode, 26), (.dects, 10), (.decrnd, 16)] →
      s.ilen = s'.ilen → (s.ilen.toNat = n → s.ibuf.toList.take n = s'.ibuf.toList.take n) →
      exec i s = .next t → exec i s' = .next t' →
      t.obuf = t'.obuf ∧ t.olen = t'.olen ∧ t.status = t'.status) ∧
    (s.ilen = s'.ilen → s.ibuf.toList.take s.ilen.toNat = s'.ibuf.toList.take s.ilen.toNat →
      exec (.b64 .ibuf) s = .next t → exec (.b64 .ibuf) s' = .next t' →
      t.status = t'.status ∧ (s.ilen.toNat ≤ 32 → t.tbuf = t'.tbuf ∧ t.tlen = t'.tlen)) ∧
    (s.olen = s'.olen → s.obuf.toList.take s.olen.toNat = s'.obuf.toList.take s.olen.toNat →
      exec (.b64 .obuf) s = .next t → exec (.b64 .obuf) s' = .next t' →
      t.tbuf = t'.tbuf ∧ t.tlen = t'.tlen ∧ t.status = t'.status) ∧
    (s.arg = s'.arg → exec .lookup s = .next t → exec .lookup s' = .next t' →
      t.res = t'.res ∧ t.status = t'.status) ∧
    (s.arg = s'.arg → exec .alpha s = .next t → exec .alpha s' = .next t' →
      t.status = t'.status ∧ (s.arg.toNat < 32 → t.res = t'.res))

/-- The frame of every command but `CLR`, through the read of one byte: every address outside the
registers that its rule writes reads as before (R93, R82–R84, R91, R72, R73, R96). -/
def Obligations.CommandsLeaveOtherAddressesAlone : Prop :=
  ∀ (i : Instr) (s t : State), exec i s = .next t →
    (∀ a : Byte, writes i a = false → t.hostRead a = s.hostRead a) ∧
      t.pending = s.pending ∧ t.observed = s.observed
end

