-- ==== Sys2Proof/Laws/State.lean ====
section
/-! SUPPORT. Laws/State.lean: one lemma per field for every update of the state, so that no later proof
unfolds a record update. -/

namespace Sys2Proof.Machine

/-! ### `State.setRes` -/

@[simp] theorem setRes_ibuf (s : State) (v : Byte) : (s.setRes v).ibuf = s.ibuf := rfl
@[simp] theorem setRes_ilen (s : State) (v : Byte) : (s.setRes v).ilen = s.ilen := rfl
@[simp] theorem setRes_arg (s : State) (v : Byte) : (s.setRes v).arg = s.arg := rfl
@[simp] theorem setRes_cmd (s : State) (v : Byte) : (s.setRes v).cmd = s.cmd := rfl
@[simp] theorem setRes_status (s : State) (v : Byte) : (s.setRes v).status = statusOk := rfl
@[simp] theorem setRes_res (s : State) (v : Byte) : (s.setRes v).res = v := rfl
@[simp] theorem setRes_olen (s : State) (v : Byte) : (s.setRes v).olen = s.olen := rfl
@[simp] theorem setRes_tlen (s : State) (v : Byte) : (s.setRes v).tlen = s.tlen := rfl
@[simp] theorem setRes_obuf (s : State) (v : Byte) : (s.setRes v).obuf = s.obuf := rfl
@[simp] theorem setRes_tbuf (s : State) (v : Byte) : (s.setRes v).tbuf = s.tbuf := rfl
@[simp] theorem setRes_pending (s : State) (v : Byte) : (s.setRes v).pending = s.pending := rfl
@[simp] theorem setRes_observed (s : State) (v : Byte) : (s.setRes v).observed = s.observed := rfl

/-! ### `State.setDecoded` -/

@[simp] theorem setDecoded_ibuf (s : State) (n : Byte) (b : List Byte) : (s.setDecoded n b).ibuf = s.ibuf := rfl
@[simp] theorem setDecoded_ilen (s : State) (n : Byte) (b : List Byte) : (s.setDecoded n b).ilen = s.ilen := rfl
@[simp] theorem setDecoded_arg (s : State) (n : Byte) (b : List Byte) : (s.setDecoded n b).arg = s.arg := rfl
@[simp] theorem setDecoded_cmd (s : State) (n : Byte) (b : List Byte) : (s.setDecoded n b).cmd = s.cmd := rfl
@[simp] theorem setDecoded_status (s : State) (n : Byte) (b : List Byte) : (s.setDecoded n b).status = statusOk := rfl
@[simp] theorem setDecoded_res (s : State) (n : Byte) (b : List Byte) : (s.setDecoded n b).res = s.res := rfl
@[simp] theorem setDecoded_olen (s : State) (n : Byte) (b : List Byte) : (s.setDecoded n b).olen = n := rfl
@[simp] theorem setDecoded_tlen (s : State) (n : Byte) (b : List Byte) : (s.setDecoded n b).tlen = s.tlen := rfl
@[simp] theorem setDecoded_obuf (s : State) (n : Byte) (b : List Byte) : (s.setDecoded n b).obuf = padded _ b := rfl
@[simp] theorem setDecoded_tbuf (s : State) (n : Byte) (b : List Byte) : (s.setDecoded n b).tbuf = s.tbuf := rfl
@[simp] theorem setDecoded_pending (s : State) (n : Byte) (b : List Byte) : (s.setDecoded n b).pending = s.pending := rfl
@[simp] theorem setDecoded_observed (s : State) (n : Byte) (b : List Byte) : (s.setDecoded n b).observed = s.observed := rfl

/-! ### `State.setText` -/

@[simp] theorem setText_ibuf (s : State) (t : List Byte) : (s.setText t).ibuf = s.ibuf := rfl
@[simp] theorem setText_ilen (s : State) (t : List Byte) : (s.setText t).ilen = s.ilen := rfl
@[simp] theorem setText_arg (s : State) (t : List Byte) : (s.setText t).arg = s.arg := rfl
@[simp] theorem setText_cmd (s : State) (t : List Byte) : (s.setText t).cmd = s.cmd := rfl
@[simp] theorem setText_status (s : State) (t : List Byte) : (s.setText t).status = statusOk := rfl
@[simp] theorem setText_res (s : State) (t : List Byte) : (s.setText t).res = s.res := rfl
@[simp] theorem setText_olen (s : State) (t : List Byte) : (s.setText t).olen = s.olen := rfl
@[simp] theorem setText_tlen (s : State) (t : List Byte) : (s.setText t).tlen = BitVec.ofNat 8 t.length := rfl
@[simp] theorem setText_obuf (s : State) (t : List Byte) : (s.setText t).obuf = s.obuf := rfl
@[simp] theorem setText_tbuf (s : State) (t : List Byte) : (s.setText t).tbuf = padded _ t := rfl
@[simp] theorem setText_pending (s : State) (t : List Byte) : (s.setText t).pending = s.pending := rfl
@[simp] theorem setText_observed (s : State) (t : List Byte) : (s.setText t).observed = s.observed := rfl

/-! ### `State.dropDecoded` -/

@[simp] theorem dropDecoded_ibuf (s : State) : (s.dropDecoded).ibuf = s.ibuf := rfl
@[simp] theorem dropDecoded_ilen (s : State) : (s.dropDecoded).ilen = s.ilen := rfl
@[simp] theorem dropDecoded_arg (s : State) : (s.dropDecoded).arg = s.arg := rfl
@[simp] theorem dropDecoded_cmd (s : State) : (s.dropDecoded).cmd = s.cmd := rfl
@[simp] theorem dropDecoded_status (s : State) : (s.dropDecoded).status = s.status := rfl
@[simp] theorem dropDecoded_res (s : State) : (s.dropDecoded).res = s.res := rfl
@[simp] theorem dropDecoded_olen (s : State) : (s.dropDecoded).olen = 0x00 := rfl
@[simp] theorem dropDecoded_tlen (s : State) : (s.dropDecoded).tlen = s.tlen := rfl
@[simp] theorem dropDecoded_obuf (s : State) : (s.dropDecoded).obuf = padded _ [] := rfl
@[simp] theorem dropDecoded_tbuf (s : State) : (s.dropDecoded).tbuf = s.tbuf := rfl
@[simp] theorem dropDecoded_pending (s : State) : (s.dropDecoded).pending = s.pending := rfl
@[simp] theorem dropDecoded_observed (s : State) : (s.dropDecoded).observed = s.observed := rfl

/-! ### `State.clear` -/

@[simp] theorem clear_ibuf (s : State) : (s.clear).ibuf = State.reset.ibuf := rfl
@[simp] theorem clear_ilen (s : State) : (s.clear).ilen = State.reset.ilen := rfl
@[simp] theorem clear_arg (s : State) : (s.clear).arg = State.reset.arg := rfl
@[simp] theorem clear_cmd (s : State) : (s.clear).cmd = State.reset.cmd := rfl
@[simp] theorem clear_status (s : State) : (s.clear).status = State.reset.status := rfl
@[simp] theorem clear_res (s : State) : (s.clear).res = State.reset.res := rfl
@[simp] theorem clear_olen (s : State) : (s.clear).olen = State.reset.olen := rfl
@[simp] theorem clear_tlen (s : State) : (s.clear).tlen = State.reset.tlen := rfl
@[simp] theorem clear_obuf (s : State) : (s.clear).obuf = State.reset.obuf := rfl
@[simp] theorem clear_tbuf (s : State) : (s.clear).tbuf = State.reset.tbuf := rfl
@[simp] theorem clear_pending (s : State) : (s.clear).pending = s.pending := rfl
@[simp] theorem clear_observed (s : State) : (s.clear).observed = s.observed := rfl

/-! ### The write to `CMD` -/

@[simp] theorem putCmd_ibuf (s : State) (v : Byte) : (s.put .cmd v).ibuf = s.ibuf := rfl
@[simp] theorem putCmd_ilen (s : State) (v : Byte) : (s.put .cmd v).ilen = s.ilen := rfl
@[simp] theorem putCmd_arg (s : State) (v : Byte) : (s.put .cmd v).arg = s.arg := rfl
@[simp] theorem putCmd_cmd (s : State) (v : Byte) : (s.put .cmd v).cmd = v := rfl
@[simp] theorem putCmd_status (s : State) (v : Byte) : (s.put .cmd v).status = s.status := rfl
@[simp] theorem putCmd_res (s : State) (v : Byte) : (s.put .cmd v).res = s.res := rfl
@[simp] theorem putCmd_olen (s : State) (v : Byte) : (s.put .cmd v).olen = s.olen := rfl
@[simp] theorem putCmd_tlen (s : State) (v : Byte) : (s.put .cmd v).tlen = s.tlen := rfl
@[simp] theorem putCmd_obuf (s : State) (v : Byte) : (s.put .cmd v).obuf = s.obuf := rfl
@[simp] theorem putCmd_tbuf (s : State) (v : Byte) : (s.put .cmd v).tbuf = s.tbuf := rfl
@[simp] theorem putCmd_pending (s : State) (v : Byte) : (s.put .cmd v).pending = s.pending := rfl
@[simp] theorem putCmd_observed (s : State) (v : Byte) : (s.put .cmd v).observed = s.observed := rfl

/-! ### A host read -/

@[simp] theorem performRead_ibuf (s : State) (a : Byte) : (performRead a s).ibuf = s.ibuf := rfl
@[simp] theorem performRead_ilen (s : State) (a : Byte) : (performRead a s).ilen = s.ilen := rfl
@[simp] theorem performRead_arg (s : State) (a : Byte) : (performRead a s).arg = s.arg := rfl
@[simp] theorem performRead_cmd (s : State) (a : Byte) : (performRead a s).cmd = s.cmd := rfl
@[simp] theorem performRead_status (s : State) (a : Byte) : (performRead a s).status = s.status := rfl
@[simp] theorem performRead_res (s : State) (a : Byte) : (performRead a s).res = s.res := rfl
@[simp] theorem performRead_olen (s : State) (a : Byte) : (performRead a s).olen = s.olen := rfl
@[simp] theorem performRead_tlen (s : State) (a : Byte) : (performRead a s).tlen = s.tlen := rfl
@[simp] theorem performRead_obuf (s : State) (a : Byte) : (performRead a s).obuf = s.obuf := rfl
@[simp] theorem performRead_tbuf (s : State) (a : Byte) : (performRead a s).tbuf = s.tbuf := rfl
@[simp] theorem performRead_pending (s : State) (a : Byte) : (performRead a s).pending = s.pending := rfl
@[simp] theorem performRead_observed (s : State) (a : Byte) : (performRead a s).observed = s.observed ++ [s.hostRead a] := rfl

/-! ### `State.load` -/

@[simp] theorem load_ibuf (s : State) (prog : List HostAccess) : (State.load prog s).ibuf = s.ibuf := rfl
@[simp] theorem load_ilen (s : State) (prog : List HostAccess) : (State.load prog s).ilen = s.ilen := rfl
@[simp] theorem load_arg (s : State) (prog : List HostAccess) : (State.load prog s).arg = s.arg := rfl
@[simp] theorem load_cmd (s : State) (prog : List HostAccess) : (State.load prog s).cmd = s.cmd := rfl
@[simp] theorem load_status (s : State) (prog : List HostAccess) : (State.load prog s).status = s.status := rfl
@[simp] theorem load_res (s : State) (prog : List HostAccess) : (State.load prog s).res = s.res := rfl
@[simp] theorem load_olen (s : State) (prog : List HostAccess) : (State.load prog s).olen = s.olen := rfl
@[simp] theorem load_tlen (s : State) (prog : List HostAccess) : (State.load prog s).tlen = s.tlen := rfl
@[simp] theorem load_obuf (s : State) (prog : List HostAccess) : (State.load prog s).obuf = s.obuf := rfl
@[simp] theorem load_tbuf (s : State) (prog : List HostAccess) : (State.load prog s).tbuf = s.tbuf := rfl
@[simp] theorem load_pending (s : State) (prog : List HostAccess) : (State.load prog s).pending = s.pending ++ prog := rfl
@[simp] theorem load_observed (s : State) (prog : List HostAccess) : (State.load prog s).observed = s.observed := rfl

/-! ### `State.raise` -/

@[simp] theorem raise_ibuf (s : State) (e : ErrorCode) : (s.raise e).ibuf = s.ibuf := by cases e <;> rfl
@[simp] theorem raise_ilen (s : State) (e : ErrorCode) : (s.raise e).ilen = s.ilen := by cases e <;> rfl
@[simp] theorem raise_arg (s : State) (e : ErrorCode) : (s.raise e).arg = s.arg := by cases e <;> rfl
@[simp] theorem raise_cmd (s : State) (e : ErrorCode) : (s.raise e).cmd = s.cmd := by cases e <;> rfl
@[simp] theorem raise_status (s : State) (e : ErrorCode) : (s.raise e).status = statusError e := by cases e <;> rfl
@[simp] theorem raise_res (s : State) (e : ErrorCode) : (s.raise e).res = s.res := by cases e <;> rfl
@[simp] theorem raise_tlen (s : State) (e : ErrorCode) : (s.raise e).tlen = s.tlen := by cases e <;> rfl
@[simp] theorem raise_tbuf (s : State) (e : ErrorCode) : (s.raise e).tbuf = s.tbuf := by cases e <;> rfl
@[simp] theorem raise_pending (s : State) (e : ErrorCode) : (s.raise e).pending = s.pending := by cases e <;> rfl
@[simp] theorem raise_observed (s : State) (e : ErrorCode) : (s.raise e).observed = s.observed := by cases e <;> rfl

@[simp] theorem raise_illegal_obuf (s : State) : (s.raise .illegalCommand).obuf = s.obuf := rfl
@[simp] theorem raise_illegal_olen (s : State) : (s.raise .illegalCommand).olen = s.olen := rfl

/-- A data error leaves no decoded byte (R104). -/
theorem raise_data_obuf (s : State) (e : ErrorCode) (h : e ≠ .illegalCommand) :
    (s.raise e).obuf = padded _ [] := by
  cases e <;> first | rfl | exact absurd rfl h

/-- A data error leaves no decoded length (R104). -/
theorem raise_data_olen (s : State) (e : ErrorCode) (h : e ≠ .illegalCommand) :
    (s.raise e).olen = 0x00 := by
  cases e <;> first | rfl | exact absurd rfl h

/-! ### `State.put` on any register -/

@[simp] theorem put_status (s : State) (r : Reg) (v : Byte) : (s.put r v).status = s.status := by cases r <;> rfl
@[simp] theorem put_res (s : State) (r : Reg) (v : Byte) : (s.put r v).res = s.res := by cases r <;> rfl
@[simp] theorem put_olen (s : State) (r : Reg) (v : Byte) : (s.put r v).olen = s.olen := by cases r <;> rfl
@[simp] theorem put_tlen (s : State) (r : Reg) (v : Byte) : (s.put r v).tlen = s.tlen := by cases r <;> rfl
@[simp] theorem put_obuf (s : State) (r : Reg) (v : Byte) : (s.put r v).obuf = s.obuf := by cases r <;> rfl
@[simp] theorem put_tbuf (s : State) (r : Reg) (v : Byte) : (s.put r v).tbuf = s.tbuf := by cases r <;> rfl
@[simp] theorem put_pending (s : State) (r : Reg) (v : Byte) : (s.put r v).pending = s.pending := by cases r <;> rfl
@[simp] theorem put_observed (s : State) (r : Reg) (v : Byte) : (s.put r v).observed = s.observed := by cases r <;> rfl

end Sys2Proof.Machine
end

