-- ==== Sys2Proof/Laws/Ops.lean ====
section
/-! SUPPORT. Laws/Ops.lean: what each shared operation can do, said once. -/

namespace Sys2Proof.Machine

/-! ### The register space (R37) -/

/-- Every register is found at its own address. -/
@[simp] theorem locate_addr (r : Reg) : locate r.addr = some r := by
  cases r with
  | ibuf i => revert i; decide
  | obuf i => revert i; decide
  | tbuf i => revert i; decide
  | _ => decide

/-- The address of a register that is found at `a` is `a`: no two addresses name one register. -/
theorem addr_of_locate {a : Byte} {r : Reg} (h : locate a = some r) : r.addr = a := by
  have all : ∀ a : Byte, (locate a).all (fun r => r.addr == a) = true := by decide
  have := all a
  rw [h] at this
  simpa using this

theorem hostRead_addr (s : State) (r : Reg) : s.hostRead r.addr = s.get r := by
  simp [State.hostRead]

theorem hostRead_reserved (s : State) {a : Byte} (h : locate a = none) : s.hostRead a = 0x00 := by
  simp [State.hostRead, h]

/-- The host's own lists are no part of what a register holds. -/
theorem hostRead_congr (s : State) (p : List HostAccess) (o : List Byte) (a : Byte) :
    State.hostRead { s with pending := p, observed := o } a = s.hostRead a := by
  simp only [State.hostRead]
  cases locate a with
  | none => rfl
  | some r => cases r <;> rfl

/-- The registers that keep what the host writes to them (R37, R39). -/
def Reg.writable : Reg → Bool
  | .ibuf _ | .ilen | .arg | .cmd => true
  | .status | .res | .olen | .tlen | .obuf _ | .tbuf _ => false

/-- A read after a write to the same register gives the byte written (R41). -/
theorem get_put_same (s : State) (r : Reg) (v : Byte) (h : r.writable = true) :
    (s.put r v).get r = v := by
  cases r <;> simp_all [State.put, State.get, Reg.writable]

/-- A write to a read-only register is ignored (R39). -/
theorem put_readOnly (s : State) (r : Reg) (v : Byte) (h : r.writable = false) : s.put r v = s := by
  cases r <;> simp_all [State.put, Reg.writable]

/-- A write leaves every other register alone (R41). -/
theorem get_put_other (s : State) (r q : Reg) (v : Byte) (h : q ≠ r) :
    (s.put r v).get q = s.get q := by
  cases r <;> cases q <;>
    first
      | rfl
      | exact absurd rfl h
      | (rename_i i j
         have hij : i.val ≠ j.val := fun e => h (by rw [Fin.ext e])
         simp [State.put, State.get, Vector.getElem_set_ne, hij])

/-! ### Buffers -/

theorem padded_getElem (n : Nat) (l : List Byte) (i : Nat) (h : i < n) :
    (padded n l)[i] = l.getD i 0x00 := by
  simp [padded]

theorem padded_nil (n : Nat) : padded n [] = Vector.replicate n 0x00 := by
  ext i h
  simp [padded]

/-- A full list fills the buffer exactly. -/
theorem padded_toList (n : Nat) (l : List Byte) (h : l.length = n) : (padded n l).toList = l := by
  apply List.ext_getElem
  · simp [h]
  · intro i h1 h2
    simp [padded, List.getD_eq_getElem?_getD, h2]

/-! ### The canonical list of cells (log entry 3) -/

/-- The register space of every state is in canonical form. -/
theorem cells_wf (s : State) : Memory.wf s.cells := by
  constructor
  · have sub : (s.cells.map Prod.fst).Sublist (List.range 256) := by
      have h := (List.filter_sublist (p := fun c : Host.Cell => c.2 != Memory.unlisted)
        (l := (List.range 256).map fun n => (n, s.hostRead (BitVec.ofNat 8 n)))).map Prod.fst
      simpa [State.cells, Function.comp_def] using h
    exact List.Pairwise.sublist sub List.pairwise_lt_range
  · intro c hc
    simp only [State.cells, List.mem_filter, List.mem_map, List.mem_range, bne_iff_ne] at hc
    obtain ⟨⟨n, hn, rfl⟩, hv⟩ := hc
    exact ⟨hn, hv⟩

/-- A byte of a list of cells made from a function, by the function. -/
theorem read_filter (f : Nat → Byte) (l : List Nat) (k : Nat) :
    ((((l.map fun n => (n, f n)).filter fun c => c.2 != Memory.unlisted).lookup k).getD
      Memory.unlisted) = if k ∈ l then f k else Memory.unlisted := by
  induction l with
  | nil => rfl
  | cons n l ih =>
    by_cases hn : f n = Memory.unlisted
    · rw [List.map_cons, List.filter_cons_of_neg (by simp [hn]), ih]
      by_cases hk : k = n <;> simp [hk, hn]
    · rw [List.map_cons, List.filter_cons_of_pos (by simp [hn]), List.lookup_cons]
      by_cases hk : k = n
      · simp [hk]
      · have hb : (k == n) = false := by simpa using hk
        simp only [hb, List.mem_cons, hk, false_or]
        exact ih

/-- The cells hold what the host reads, at every address. -/
theorem read_cells (s : State) (a : Byte) : Memory.read s.cells a = s.hostRead a := by
  rw [Memory.read, State.cells, read_filter (fun n => s.hostRead (BitVec.ofNat 8 n)),
    if_pos (List.mem_range.2 a.isLt)]
  simp

/-- Reset leaves no cell listed (R34). -/
theorem cells_reset : State.reset.cells = [] := by decide

/-! ### Commands: what each can do, as cases -/

/-- A decoder either stores its bytes or ends with an error (R82–R84). -/
theorem runDecoder_cases (n : Nat) (f : List Byte → Result (List Byte)) (olen : Byte) (s : State) :
    (s.ilen.toNat = n ∧ ∃ b, f (s.input n) = .ok b ∧ runDecoder n f olen s = s.setDecoded olen b) ∨
    (s.ilen.toNat = n ∧ ∃ e, f (s.input n) = .err e ∧ runDecoder n f olen s = s.raise e) ∨
    (s.ilen.toNat ≠ n ∧ runDecoder n f olen s = s.raise .invalidLength) := by
  by_cases h : s.ilen.toNat = n
  · cases hf : f (s.input n) with
    | ok b => exact .inl ⟨h, b, rfl, by simp [runDecoder, h, hf]⟩
    | err e => exact .inr (.inl ⟨h, e, rfl, by simp [runDecoder, h, hf]⟩)
  · exact .inr (.inr ⟨h, by simp [runDecoder, h]⟩)

/-- `ALPHA` reads a character or ends as `ILLEGAL_COMMAND` (R73). -/
theorem execAlpha_cases (s : State) :
    (s.arg.toNat < 32 ∧ execAlpha s = .next (s.setRes (alphabetAt s.arg.toNat))) ∨
    (32 ≤ s.arg.toNat ∧ execAlpha s = .next (s.raise .illegalCommand)) := by
  by_cases h : 32 ≤ s.arg.toNat
  · exact .inr ⟨h, by simp [execAlpha, h]⟩
  · exact .inl ⟨by omega, by simp [execAlpha, h]⟩

/-- `B64` renders its input or ends as `ILLEGAL_COMMAND` (R91). -/
theorem execB64_cases (src : Source) (s : State) :
    (¬ (src = .ibuf ∧ Config.ibufSize < s.ilen.toNat) ∧
      execB64 src s = .next (s.setText (base64 (s.b64Input src)))) ∨
    ((src = .ibuf ∧ Config.ibufSize < s.ilen.toNat) ∧
      execB64 src s = .next (s.raise .illegalCommand)) := by
  by_cases h : src = .ibuf ∧ Config.ibufSize < s.ilen.toNat
  · exact .inr ⟨h, by rw [execB64, if_pos h]⟩
  · exact .inl ⟨h, by rw [execB64, if_neg h]⟩

/-! ### The decoders raise data errors only (R97) -/

theorem decodeTs_err {t : List Byte} {e : ErrorCode} (h : decodeTs t = .err e) :
    e ≠ .illegalCommand := by
  rintro rfl
  unfold decodeTs at h
  split_ifs at h <;> cases h

theorem decodeRnd_err {r : List Byte} {e : ErrorCode} (h : decodeRnd r = .err e) :
    e = .invalidLength ∨ e = .invalidCharacter := by
  unfold decodeRnd at h
  split_ifs at h <;> cases h <;> simp

theorem decodeUlid_err {u : List Byte} {e : ErrorCode} (h : decodeUlid u = .err e) :
    e ≠ .illegalCommand := by
  rintro rfl
  unfold decodeUlid at h
  split_ifs at h
  · cases h
  · split at h
    · rename_i hts
      cases h
      exact decodeTs_err hts rfl
    · split at h
      · rename_i hrnd
        cases h
        exact absurd (decodeRnd_err hrnd) (by simp)
      · cases h
  · cases h

/-- The two kinds of result of a decoder. -/
theorem runDecoder_kinds (n : Nat) (f : List Byte → Result (List Byte)) (olen : Byte) (s : State)
    (hf : ∀ t e, f t = .err e → e ≠ .illegalCommand) :
    (∃ b, runDecoder n f olen s = s.setDecoded olen b) ∨
    ∃ e, e ≠ .illegalCommand ∧ runDecoder n f olen s = s.raise e := by
  obtain ⟨-, b, -, h⟩ | ⟨-, e, he, h⟩ | ⟨-, h⟩ := runDecoder_cases n f olen s
  · exact .inl ⟨b, h⟩
  · exact .inr ⟨e, hf _ _ he, h⟩
  · exact .inr ⟨_, by decide, h⟩

/-- The three decode commands (R82–R84). -/
abbrev isDecoder (i : Instr) : Prop := i = .decode ∨ i = .dects ∨ i = .decrnd

/-- Everything a command can do to the state (R55, R97): one of seven kinds of result. -/
def ExecKind (i : Instr) (s t : State) : Prop :=
  (i = .nop ∧ t = s) ∨
  (i = .clr ∧ t = s.clear) ∨
  ((i = .lookup ∨ i = .alpha) ∧ ∃ v, t = s.setRes v) ∨
  (isDecoder i ∧ ∃ n b, t = s.setDecoded n b) ∨
  ((∃ src, i = .b64 src) ∧ ∃ x, t = s.setText x) ∨
  (isDecoder i ∧ ∃ e, e ≠ .illegalCommand ∧ t = s.raise e) ∨
  ((i = .alpha ∨ ∃ src, i = .b64 src) ∧ t = s.raise .illegalCommand)

theorem execKind_runDecoder {i : Instr} (hi : isDecoder i) (n : Nat)
    (f : List Byte → Result (List Byte)) (olen : Byte) (s : State)
    (hf : ∀ t e, f t = .err e → e ≠ .illegalCommand) : ExecKind i s (runDecoder n f olen s) := by
  obtain ⟨b, h⟩ | ⟨e, he, h⟩ := runDecoder_kinds n f olen s hf
  · exact .inr (.inr (.inr (.inl ⟨hi, olen, b, h⟩)))
  · exact .inr (.inr (.inr (.inr (.inr (.inl ⟨hi, e, he, h⟩)))))

/-- Every command answers a next state, of one of the seven kinds. -/
theorem exec_cases (i : Instr) (s : State) : ∃ t, exec i s = .next t ∧ ExecKind i s t := by
  cases i with
  | nop => exact ⟨s, rfl, by simp [ExecKind]⟩
  | clr => exact ⟨s.clear, rfl, by simp [ExecKind]⟩
  | lookup => exact ⟨s.setRes (lut s.arg), rfl, by simp [ExecKind]⟩
  | alpha =>
    obtain ⟨-, h⟩ | ⟨-, h⟩ := execAlpha_cases s
    · exact ⟨_, h, .inr (.inr (.inl ⟨.inr rfl, _, rfl⟩))⟩
    · exact ⟨_, h, .inr (.inr (.inr (.inr (.inr (.inr ⟨.inl rfl, rfl⟩)))))⟩
  | b64 src =>
    obtain ⟨-, h⟩ | ⟨-, h⟩ := execB64_cases src s
    · exact ⟨_, h, .inr (.inr (.inr (.inr (.inl ⟨⟨src, rfl⟩, _, rfl⟩))))⟩
    · exact ⟨_, h, .inr (.inr (.inr (.inr (.inr (.inr ⟨.inr ⟨src, rfl⟩, rfl⟩)))))⟩
  | decode =>
    exact ⟨_, rfl, execKind_runDecoder (.inl rfl) _ _ _ s fun _ _ => decodeUlid_err⟩
  | dects =>
    exact ⟨_, rfl, execKind_runDecoder (.inr (.inl rfl)) _ _ _ s fun _ _ => decodeTs_err⟩
  | decrnd =>
    refine ⟨_, rfl, execKind_runDecoder (.inr (.inr rfl)) _ _ _ s fun _ _ h => ?_⟩
    obtain rfl | rfl := decodeRnd_err h <;> decide

/-! ### Accesses and the step -/

theorem runCommand_legal {v : Byte} {i : Instr} (h : decode v = .ok i) (s : State) :
    runCommand v s = exec i (s.put .cmd v) := by
  simp [runCommand, h]

theorem runCommand_illegal {v : Byte} {why : Illegal} (h : decode v = .error why) (s : State) :
    runCommand v s = .next ((s.put .cmd v).raise .illegalCommand) := by
  simp [runCommand, h]

/-- `CMD` stands at 0x22 (R37), so a write there runs a command. -/
theorem perform_command (v : Byte) (s : State) : perform (.write 0x22 v) s = runCommand v s := by
  have h : locate 0x22 = some .cmd := by decide
  rw [perform, performWrite, h]

/-- What a host write can do (R38, R39, R41). -/
theorem performWrite_cases (a v : Byte) (s : State) :
    (locate a = some .cmd ∧ performWrite a v s = runCommand v s) ∨
    (∃ r, r ≠ .cmd ∧ locate a = some r ∧ performWrite a v s = .next (s.put r v)) ∨
    (locate a = none ∧ performWrite a v s = .next s) := by
  cases h : locate a with
  | none => exact .inr (.inr ⟨rfl, by simp [performWrite, h]⟩)
  | some r =>
    by_cases hr : r = .cmd
    · subst hr
      exact .inl ⟨rfl, by simp [performWrite, h]⟩
    · exact .inr (.inl ⟨r, hr, rfl, by cases r <;> first | exact absurd rfl hr | simp [performWrite, h]⟩)

/-- Every access answers a next state (R103). -/
theorem perform_next (x : HostAccess) (s : State) : ∃ t, perform x s = .next t := by
  cases x with
  | read a => exact ⟨_, rfl⟩
  | reset r => exact ⟨_, rfl⟩
  | write a v =>
    obtain ⟨-, h⟩ | ⟨r, -, -, h⟩ | ⟨-, h⟩ := performWrite_cases a v s
    · rw [perform, h]
      cases hd : decode v with
      | ok i =>
        rw [runCommand_legal hd]
        obtain ⟨t, ht, -⟩ := exec_cases i (s.put .cmd v)
        exact ⟨t, ht⟩
      | error why => exact ⟨_, runCommand_illegal hd s⟩
    · exact ⟨_, h⟩
    · exact ⟨_, h⟩

theorem step_idle {s : State} (h : s.pending = []) : step s = .next s := by
  simp [step, takeAccess, h, idle]

theorem step_access {s : State} {x : HostAccess} {rest : List HostAccess}
    (h : s.pending = x :: rest) : step s = perform x { s with pending := rest } := by
  simp [step, takeAccess, h]

/-- A run goes on from the next state. -/
theorem run_succ {s t : State} (h : step s = .next t) (k : Nat) :
    core.run (k + 1) s = core.run k t := by
  have h' : core.step s = .next t := h
  simp only [Host.Core.run, h']

theorem run_one {s t : State} (h : step s = .next t) : core.run 1 s = .next t := run_succ h 0

end Sys2Proof.Machine
end

