-- ==== Sys2Proof/Laws/Base32.lean ====
section
/-! SUPPORT. Laws/Base32.lean: the small lemmas of the packing functions, of the tables as the decoders
use them, and what the two sub-decoders accept. -/

namespace Sys2Proof.Machine

/-! ### `val`, `be` and the value of bytes -/

theorem symVal_append (s t : List Nat) : symVal (s ++ t) = symVal s * 32 ^ t.length + symVal t := by
  induction t using List.reverseRecOn with
  | nil => simp [symVal]
  | append_singleton t x ih =>
    simp only [symVal, List.foldl_append, List.foldl_cons, List.foldl_nil, List.length_append,
      List.length_cons, List.length_nil] at *
    rw [ih]
    ring

theorem symVal_cons (x : Nat) (t : List Nat) : symVal (x :: t) = x * 32 ^ t.length + symVal t := by
  rw [← List.singleton_append, symVal_append]
  simp [symVal]

/-- Ten symbols give less than 2^50 and sixteen less than 2^80 (R86). -/
theorem symVal_lt (s : List Nat) (h : ∀ x ∈ s, x < 32) : symVal s < 32 ^ s.length := by
  induction s with
  | nil => simp [symVal]
  | cons x s ih =>
    have hs := ih fun y hy => h y (List.mem_cons_of_mem x hy)
    have hx := h x List.mem_cons_self
    rw [symVal_cons, List.length_cons, pow_succ]
    nlinarith [pow_pos (show 0 < 32 by norm_num) s.length]

theorem bytesValue_append (s t : List Byte) :
    bytesValue (s ++ t) = bytesValue s * 256 ^ t.length + bytesValue t := by
  induction t using List.reverseRecOn with
  | nil => simp [bytesValue]
  | append_singleton t x ih =>
    simp only [bytesValue, List.foldl_append, List.foldl_cons, List.foldl_nil, List.length_append,
      List.length_cons, List.length_nil] at *
    rw [ih]
    ring

theorem bytesValue_cons (x : Byte) (t : List Byte) :
    bytesValue (x :: t) = x.toNat * 256 ^ t.length + bytesValue t := by
  rw [← List.singleton_append, bytesValue_append]
  simp [bytesValue]

theorem bytesValue_lt (s : List Byte) : bytesValue s < 256 ^ s.length := by
  induction s with
  | nil => simp [bytesValue]
  | cons x s ih =>
    have hx := x.isLt
    rw [bytesValue_cons, List.length_cons, pow_succ]
    nlinarith [pow_pos (show 0 < 256 by norm_num) s.length]

@[simp] theorem bigEndian_length (n v : Nat) : (bigEndian n v).length = n := by simp [bigEndian]

theorem bigEndian_succ (n v : Nat) :
    bigEndian (n + 1) v = BitVec.ofNat 8 (v / 256 ^ n) :: bigEndian n v := by
  simp only [bigEndian, List.range_succ_eq_map, List.map_cons, List.map_map]
  congr 1
  apply List.map_congr_left
  intro k hk
  simp only [Function.comp_apply]
  congr 3
  omega

/-- The bytes that `be` emits write the value back (R74). -/
theorem bytesValue_bigEndian (n v : Nat) : bytesValue (bigEndian n v) = v % 256 ^ n := by
  induction n with
  | zero => simp [bigEndian, bytesValue, Nat.mod_one]
  | succ n ih =>
    rw [bigEndian_succ, bytesValue_cons, ih, bigEndian_length, BitVec.toNat_ofNat]
    rw [pow_succ 256 n, Nat.mod_mul (x := v) (a := 256 ^ n) (b := 256), mul_comm, add_comm]

/-! ### The tables as the decoders use them (R71) -/

theorem isCanon_sym {b : Byte} (h : isCanon b = true) : sym b < 32 ∧ alphabetAt (sym b) = b := by
  have all : ∀ b : Byte, isCanon b = true → sym b < 32 ∧ alphabetAt (sym b) = b := by
    decide +kernel
  exact all b h

theorem alphabetAt_canon {i : Nat} (h : i < 32) :
    isCanon (alphabetAt i) = true ∧ sym (alphabetAt i) = i := by
  have all : ∀ i : Fin 32, isCanon (alphabetAt i.val) = true ∧ sym (alphabetAt i.val) = i.val := by
    decide
  exact all ⟨i, h⟩

/-! ### What the sub-decoders accept (R75, R78) -/

theorem decodeTs_ok_iff (t b : List Byte) :
    decodeTs t = .ok b ↔ t.length = 10 ∧ (∀ c ∈ t, isCanon c = true) ∧
      (t.map sym).getD 0 0 ≤ 7 ∧ b = bigEndian 6 (symVal (t.map sym)) := by
  unfold decodeTs
  by_cases h1 : t.length = 10
  swap
  · rw [if_pos h1]
    exact ⟨fun h => (nomatch h), fun h => absurd h.1 h1⟩
  rw [if_neg (by simpa using h1)]
  by_cases h2 : t.all isCanon = true
  swap
  · rw [if_pos h2]
    exact ⟨fun h => (nomatch h), fun h => absurd (List.all_eq_true.2 h.2.1) h2⟩
  rw [if_neg (not_not_intro h2)]
  by_cases h3 : tsOverflow ((t.map sym).getD 0 0) = true
  · rw [if_pos h3]
    simp only [tsOverflow, decide_eq_true_eq] at h3
    exact ⟨fun h => (nomatch h), fun h => absurd h3 (Nat.not_lt.2 h.2.2.1)⟩
  · rw [if_neg h3]
    simp only [tsOverflow, decide_eq_true_eq, Nat.not_lt] at h3
    constructor
    · intro h
      cases h
      exact ⟨h1, List.all_eq_true.1 h2, h3, rfl⟩
    · rintro ⟨-, -, -, rfl⟩
      rfl

theorem decodeRnd_ok_iff (r b : List Byte) :
    decodeRnd r = .ok b ↔ r.length = 16 ∧ (∀ c ∈ r, isCanon c = true) ∧
      b = bigEndian 10 (symVal (r.map sym)) := by
  unfold decodeRnd
  by_cases h1 : r.length = 16
  swap
  · rw [if_pos h1]
    exact ⟨fun h => (nomatch h), fun h => absurd h.1 h1⟩
  rw [if_neg (by simpa using h1)]
  by_cases h2 : r.all isCanon = true
  swap
  · rw [if_pos h2]
    exact ⟨fun h => (nomatch h), fun h => absurd (List.all_eq_true.2 h.2.1) h2⟩
  rw [if_neg (not_not_intro h2)]
  constructor
  · intro h
    cases h
    exact ⟨h1, List.all_eq_true.1 h2, rfl⟩
  · rintro ⟨-, -, rfl⟩
    rfl

/-! ### The packing of padded buffers -/

theorem padded_toList_append (n : Nat) (l : List Byte) (h : l.length ≤ n) :
    (padded n l).toList = l ++ List.replicate (n - l.length) 0x00 := by
  apply List.ext_getElem
  · simp only [Vector.length_toList, List.length_append, List.length_replicate]
    omega
  · intro i h1 h2
    simp [padded, List.getD_eq_getElem?_getD, List.getElem_append]
    split <;> simp_all

end Sys2Proof.Machine
end

