-- ==== Sys2Proof/Laws/Base64.lean ====
section
/-! SUPPORT. Laws/Base64.lean: the small lemmas of the renderer's groups and characters (R87, R88). -/

namespace Sys2Proof.Machine

/-- A full group renders as four characters before the rest (R88). -/
theorem base64_group (a b c : Byte) (rest : List Byte) :
    base64 (a :: b :: c :: rest) =
      b64Digit (b64Group a b c) 18 :: b64Digit (b64Group a b c) 12 ::
        b64Digit (b64Group a b c) 6 :: b64Digit (b64Group a b c) 0 :: base64 rest := rfl

/-- No character of the alphabet is the pad (R87). -/
theorem b64Char_ne_pad (i : BitVec 6) : b64Char i ≠ b64Pad := by
  revert i
  decide +kernel

/-- The alphabet has no repeats (R87). -/
theorem b64Char_injective (i j : BitVec 6) (h : b64Char i = b64Char j) : i = j := by
  have all : ∀ i j : BitVec 6, b64Char i = b64Char j → i = j := by decide +kernel
  exact all i j h

/-- A group's number is its three bytes in base 256 (R88). -/
theorem b64Group_toNat (a b c : Byte) :
    (b64Group a b c).toNat = a.toNat * 65536 + b.toNat * 256 + c.toNat := by
  have ha := a.isLt
  have hb := b.isLt
  have hc := c.isLt
  simp only [b64Group, BitVec.toNat_or, BitVec.toNat_shiftLeft, BitVec.toNat_setWidth]
  rw [Nat.mod_eq_of_lt (show a.toNat < 2 ^ 24 by omega), Nat.mod_eq_of_lt (show b.toNat < 2 ^ 24 by omega),
    Nat.mod_eq_of_lt (show c.toNat < 2 ^ 24 by omega), Nat.mod_eq_of_lt (a := a.toNat <<< 16)
      (by rw [Nat.shiftLeft_eq]; omega), Nat.mod_eq_of_lt (a := b.toNat <<< 8)
      (by rw [Nat.shiftLeft_eq]; omega), Nat.or_assoc, ← Nat.shiftLeft_add_eq_or_of_lt hc,
    ← Nat.shiftLeft_add_eq_or_of_lt (show b.toNat <<< 8 + c.toNat < 2 ^ 16 by
      rw [Nat.shiftLeft_eq]; omega), Nat.shiftLeft_eq, Nat.shiftLeft_eq]
  ring

/-- The four digits of a group write its number in base 64 (R88). -/
theorem b64Group_digits (w : BitVec 24) :
    (w.extractLsb' 18 6).toNat * 64 ^ 3 + (w.extractLsb' 12 6).toNat * 64 ^ 2 +
      (w.extractLsb' 6 6).toNat * 64 + (w.extractLsb' 0 6).toNat = w.toNat := by
  have h := w.isLt
  simp only [BitVec.extractLsb'_toNat, Nat.shiftRight_eq_div_pow]
  norm_num at *
  omega

end Sys2Proof.Machine
end

