-- ==== Sys2Proof/Laws/PerInstr.lean ====
section
/-! SUPPORT. Laws/PerInstr.lean: facts about every command as syntax, one lemma per constructor. -/

namespace Sys2Proof.Laws.EncodesLegally

/-- The command's fields pass the checks of R58, its byte is legal, and the byte holds those fields
(R54). -/
def Statement (i : Instr) : Prop :=
  i.wellFormed = true ∧ legal (encode i) = true ∧ fieldsOf (encode i) = i.fields

theorem nop : Statement .nop := by unfold Statement; decide
theorem decode : Statement .decode := by unfold Statement; decide
theorem dects : Statement .dects := by unfold Statement; decide
theorem decrnd : Statement .decrnd := by unfold Statement; decide
theorem b64 (src : Source) : Statement (.b64 src) := by cases src <;> (unfold Statement; decide)
theorem lookup : Statement .lookup := by unfold Statement; decide
theorem alpha : Statement .alpha := by unfold Statement; decide
theorem clr : Statement .clr := by unfold Statement; decide

end Sys2Proof.Laws.EncodesLegally
end

