-- ==== Sys2Proof/Tests/Slice0.lean ====
section
/-! SUPPORT. Tests/Slice0.lean: the model against the spec's own vectors (95_test_vectors.md), the
well-formedness checks on ill-formed commands, and for every statement with hypotheses a witness that
meets them. Every expected value is copied from spec/. -/

namespace Sys2Proof.Tests

open Sys2Proof.Machine Sys2Proof.Claims

/-! ### Helpers -/

/-- The character codes of a text. -/
def codes (t : String) : List Byte := t.toList.map fun c => BitVec.ofNat 8 c.toNat

/-- The state in which the host has presented a text after reset. -/
def holding (t : String) : State :=
  { State.reset with ibuf := padded _ (codes t), ilen := BitVec.ofNat 8 t.toList.length }

/-- The state in which `ARG` holds a byte after reset. -/
def withArg (b : Byte) : State := { State.reset with arg := b }

/-- What is read off the next state of an outcome. -/
def after {α : Type} (o : Host.Outcome State Fault Refusal) (f : State → α) : Option α :=
  match o with
  | .next t => some (f t)
  | .fault _ => none
  | .refused _ => none

/-- `OLEN`, `STATUS` and the bytes of `OBUF` below `OLEN`. -/
def decodedPart (t : State) : Byte × Byte × List Byte :=
  (t.olen, t.status, t.obuf.toList.take t.olen.toNat)

/-- `TLEN`, `STATUS` and the characters of `TBUF` below `TLEN`. -/
def textPart (t : State) : Byte × Byte × List Byte :=
  (t.tlen, t.status, t.tbuf.toList.take t.tlen.toNat)

/-- The worked example (V1). -/
def v1 : State := holding "01JCJHNXPXV7C75VMGG0B70JT1"

/-! ### Well-formedness: an ill-formed term for each check (R58, R60) -/

theorem test_wellFormed_refuses_reservedBits :
    CommandFields.check { op := 0x0, src := 0, rsv := 1 } = some .reservedBits := by decide
theorem test_wellFormed_refuses_reservedOperation :
    CommandFields.check { op := 0x8, src := 0, rsv := 0 } = some .reservedOperation := by decide
theorem test_wellFormed_refuses_sourceNotAllowed :
    CommandFields.check { op := 0x5, src := 1, rsv := 0 } = some .sourceNotAllowed := by decide
theorem test_wellFormed_accepts_b64_obuf :
    CommandFields.check { op := 0x4, src := 1, rsv := 0 } = none := by decide

/-! ### Decoding: every constructor's word, written out from R54 and R55 -/

theorem test_decode_nop : decode 0b00000000#8 = .ok .nop := by decide
theorem test_decode_decode : decode 0b00000001#8 = .ok .decode := by decide
theorem test_decode_dects : decode 0b00000010#8 = .ok .dects := by decide
theorem test_decode_decrnd : decode 0b00000011#8 = .ok .decrnd := by decide
theorem test_decode_b64_ibuf : decode 0b00000100#8 = .ok (.b64 .ibuf) := by decide
theorem test_decode_b64_obuf : decode 0b00010100#8 = .ok (.b64 .obuf) := by decide
theorem test_decode_lookup : decode 0b00000101#8 = .ok .lookup := by decide
theorem test_decode_alpha : decode 0b00000110#8 = .ok .alpha := by decide
theorem test_decode_clr : decode 0b00000111#8 = .ok .clr := by decide
/-- V14: the illegal bytes it lists. -/
theorem test_decode_illegal_bytes :
    ([0x08, 0x09, 0x0F, 0x10, 0x11, 0x12, 0x13, 0x15, 0x16, 0x17, 0x20, 0x21, 0x24, 0x34, 0x80, 0xE1,
      0xFF] : List Byte).all (fun v => legal v == false && (decode v).toOption.isNone) = true := by
  decide
theorem test_tableWord_b64 : decodeTableWord 8 0x14 = some (.b64 .obuf) := by decide
theorem test_tableWord_illegal : decodeTableWord 8 0x10 = none := by decide

/-! ### Commands against the spec's vectors -/

/-- V1. -/
theorem test_decode_worked_example :
    after (exec .decode v1) decodedPart = some (16, 0x80,
      [0x01, 0x93, 0x25, 0x1A, 0xF6, 0xDD, 0xD9, 0xD8, 0x72, 0xEE, 0x90, 0x80, 0x16, 0x70, 0x4B, 0x41]) := by
  decide +kernel
/-- V9: the character check comes before the overflow check. -/
theorem test_decode_priority :
    after (exec .decode (holding "8ZZZZZZZZZZZZZZZZZZZZZZZZz")) decodedPart = some (0, 0x82, []) := by
  decide +kernel
/-- V10. -/
theorem test_dects_success :
    after (exec .dects (holding "0123456789")) decodedPart =
      some (6, 0x80, [0x01, 0x10, 0xC8, 0x53, 0x1D, 0x09]) := by decide +kernel
theorem test_dects_overflow :
    after (exec .dects (holding "8000000000")) decodedPart = some (0, 0x83, []) := by decide +kernel
/-- V11. -/
theorem test_decrnd_success :
    after (exec .decrnd (holding "0123456789ABCDEF")) decodedPart =
      some (10, 0x80, [0x00, 0x44, 0x32, 0x14, 0xC7, 0x42, 0x54, 0xB6, 0x35, 0xCF]) := by
  decide +kernel
theorem test_decrnd_lowercase :
    after (exec .decrnd (holding "000000000000000u")) decodedPart = some (0, 0x82, []) := by
  decide +kernel
/-- V12: FB FF renders as `+/8=`. -/
theorem test_b64_two_bytes_left :
    after (exec (.b64 .ibuf) { State.reset with ibuf := padded _ [0xFB, 0xFF], ilen := 2 }) textPart =
      some (4, 0x80, codes "+/8=") := by decide +kernel
/-- V13: `OBUF` after `DECTS` of `01JCJHNXPX`. -/
theorem test_b64_from_obuf :
    after (exec (.b64 .obuf)
      { State.reset with obuf := padded _ [0x01, 0x93, 0x25, 0x1A, 0xF6, 0xDD], olen := 6 }) textPart =
      some (8, 0x80, codes "AZMlGvbd") := by decide +kernel
/-- V6: lowercase z has a value, and I has not. -/
theorem test_lookup_lowercase :
    after (exec .lookup (withArg 0x7A)) (fun t => (t.res, t.status)) = some (0x1F, 0x80) := by decide
theorem test_lookup_sentinel :
    after (exec .lookup (withArg 0x49)) (fun t => (t.res, t.status)) = some (0xFF, 0x80) := by decide
/-- V7: the last index and the first one out of range. -/
theorem test_alpha_last :
    after (exec .alpha (withArg 0x1F)) (fun t => (t.res, t.status)) = some (0x5A, 0x80) := by decide
theorem test_alpha_out_of_range :
    after (exec .alpha { withArg 0x20 with res := 0x5A }) (fun t => (t.res, t.status)) =
      some (0x5A, 0x84) := by decide
/-- R93: the example. -/
theorem test_nop_keeps_status :
    after (step { State.reset with status := 0x82, cmd := 0x01, pending := [.write 0x22 0x00] })
      (fun t => (t.status, t.cmd)) = some (0x82, 0x00) := by decide
/-- V14: `CMD` reads 0x00 after `CLR`. -/
theorem test_clr_clears_cmd :
    after (step { v1 with status := 0x84, pending := [.write 0x22 0x07] })
      (fun t => (t.cmd, t.status, t.ilen)) = some (0x00, 0x00, 0x00) := by decide +kernel
/-- V15: a reserved address stays 0x00. -/
theorem test_reserved_address_write_then_read :
    after (core.run 2 { State.reset with pending := [.write 0x80 0x55, .read 0x80] })
      State.observed = some [0x00] := by decide
/-- V15: `wr OBUF[0], 55` is ignored. -/
theorem test_readOnly_write_ignored :
    after (step { State.reset with pending := [.write 0x30 0x55] }) (fun t => t.obuf[0]) = some 0x00 := by
  decide
/-- P2's first line. -/
theorem test_lds_expands :
    (AsmLine.lds [0x38, 0x5A]).expand = some [.write 0x00 0x38, .write 0x01 0x5A, .write 0x20 0x02] := by
  decide
/-- R52, D3: a character above 0xFF is presented as 0xFF, not as its low byte. -/
theorem test_charByte_above_byte : charByte 0x0141 = 0xFF := by decide
/-- After reset the first command runs in the first step. -/
theorem test_fetchWord_runs_first :
    after (step (State.reset.withFetchWord 8 0x05)) (fun t => (t.cmd, t.res, t.status)) =
      some (0x05, 0xFF, 0x80) := by decide

/-! ### Witnesses: states and operands that meet the hypotheses of the statements -/

theorem witness_DecodeAndEncodeAgree : decode (encode (.b64 .obuf)) = .ok (.b64 .obuf) := by decide

theorem witness_LegalBytesAreNineAndRunTheirOperation : legal 0x14 = true ∧ legal 0x15 = false := by
  decide

theorem witness_IllegalByteSetsOnlyCommandAndStatus :
    ({ State.reset with pending := [.write 0x22 0x08] } : State).pending = .write 0x22 0x08 :: [] ∧
      legal 0x08 = false := by decide

theorem witness_NopIsTheOnlyByteWithoutEffect (s : State) :
    perform (.write 0x22 0x00) s = .next { s with cmd := 0x00 } := rfl

theorem witness_StepRunsTheDecodedCommand :
    ({ State.reset with pending := [.write 0x22 0x14] } : State).pending = .write 0x22 0x14 :: [] ∧
      decode 0x14 = .ok (.b64 .obuf) := by decide

theorem witness_PlacedWordIsTheNextCommand : decodeTableWord 8 0x07 = some .clr := by decide

theorem witness_ReadReturnsValueWithoutSideEffect :
    ({ State.reset with pending := [.read 0x23] } : State).pending = .read 0x23 :: [] ∧
      ({ State.reset with pending := [.read 0x6B, .read 0x6B] } : State).pending =
        .read 0x6B :: .read 0x6B :: [] := by decide

theorem witness_RegisterMap_reserved_bounds :
    ([0x27, 0x2F, 0x6C, 0xFF] : List Nat).all
      (fun n => (0x27 ≤ n && n ≤ 0x2F || 0x6C ≤ n && n ≤ 0xFF) &&
        locate (BitVec.ofNat 8 n) == none) = true := by decide

/-- Both ranges of reserved addresses at their ends, and that the addresses beside them are registers. -/
theorem witness_RegisterMapGivesEveryAddress :
    (∀ n ∈ [0x27, 0x2F, 0x6C, 0xFF], (0x27 ≤ n ∧ n ≤ 0x2F ∨ 0x6C ≤ n ∧ n ≤ 0xFF) ∧
      locate (BitVec.ofNat 8 n) = none) ∧
    ∀ n ∈ [0x26, 0x30, 0x6B], (locate (BitVec.ofNat 8 n)).isSome = true := by decide

theorem witness_ReservedAddressesAreInert :
    ([0x27, 0x2F, 0x6C, 0xFF] : List Byte).all
      (fun a => (0x27 ≤ a.toNat && a.toNat ≤ 0x2F || 0x6C ≤ a.toNat) &&
        ({ State.reset with pending := [.write a 0x55] } : State).pending == [.write a 0x55]) = true := by
  decide

theorem witness_ReadOnlyRegistersIgnoreWrites :
    ([0x23, 0x26, 0x30, 0x6B] : List Byte).all
      (fun a => (0x23 ≤ a.toNat && a.toNat ≤ 0x26 || 0x30 ≤ a.toNat && a.toNat ≤ 0x6B) &&
        ({ State.reset with pending := [.write a 0x55] } : State).pending == [.write a 0x55]) = true := by
  decide

theorem witness_OperandWriteStoresItsByteOnly :
    (0x21 : Byte).toNat ≤ 0x21 ∧ (0x00 : Byte).toNat ≤ 0x21 ∧ (0x20 : Byte) ≠ 0x21 ∧
      ({ State.reset with pending := [.write 0x21 0x55] } : State).pending = .write 0x21 0x55 :: [] := by
  decide

theorem witness_CommandRegisterReadsLastByte :
    ({ State.reset with pending := [.write 0x22 0x07] } : State).pending = .write 0x22 0x07 :: [] ∧
    ∃ t, step { State.reset with pending := [.write 0x21 0x05] } = .next t ∧
      (∀ v, HostAccess.write 0x21 0x05 ≠ .write 0x22 v) ∧
      ∀ r, HostAccess.write 0x21 0x05 ≠ .reset r :=
  ⟨rfl, _, rfl, by simp, by simp⟩

theorem witness_ReadAfterWriteReturnsTheByte :
    (0x21 : Byte).toNat ≤ 0x21 ∧
      ({ State.reset with pending := [.write 0x21 0x55, .read 0x21] } : State).pending =
        .write 0x21 0x55 :: .read 0x21 :: [] := by decide

theorem witness_ReadAfterCommandSeesItsWholeResult :
    ∃ t, step { State.reset with pending := [.write 0x22 0x05, .read 0x24] } = .next t := ⟨_, rfl⟩

theorem witness_CellsDetermineEveryRegister :
    (withArg 0x05).cells = { withArg 0x05 with observed := [0x01] }.cells ∧
      withArg 0x05 ≠ { withArg 0x05 with observed := [0x01] } := by decide

theorem witness_WiderWriteIsItsBytesInAscendingOrder :
    splitWrite 0xFE [0x01, 0x02] = some [.write 0xFE 0x01, .write 0xFF 0x02] ∧
      splitWrite 0xFF [0x01, 0x02] = none ∧ ([0x01, 0x02] : List Byte)[1]? = some 0x02 := by decide

theorem witness_PseudoInstructionsWriteTheirCommand :
    (AsmLine.b64 .obuf).expand = some [.write 0x22 0x14] := by decide

theorem witness_AllResetSourcesHaveTheSameEffect :
    ([.reset .powerOn, .reset .resetInput, .write 0x22 0x07] : List HostAccess).all
      (fun x => (x == .reset .powerOn || x == .reset .resetInput || x == .write 0x22 0x07) &&
        ({ v1 with pending := [x] } : State).pending == [x]) = true := by decide

theorem witness_NopLeavesEverythingElse : (0x80 : Byte) ∈ ([0x10, 0x20, 0x40, 0x80] : List Byte) := by
  decide

theorem witness_CanonicalBytesAreTheAlphabet :
    (0x61 : Byte).toNat ≤ 0x7A ∧ 0x61 ≤ (0x7A : Byte).toNat ∧
      (0x55 : Byte) ∈ ([0x49, 0x4C, 0x4F, 0x55] : List Byte) ∧ 0x80 ≤ (0x80 : Byte).toNat := by decide

theorem witness_LookupTableFollowsTheAlphabet :
    10 ≤ (10 : Fin 32).val ∧
      ∀ i : Fin 32, (0x49 : Byte) ≠ alphabetAt i.val ∧
        (10 ≤ i.val → (0x49 : Byte) ≠ alphabetAt i.val + 0x20) := by decide

theorem witness_TableLawsHold : isCanon 0x5A = true ∧ isCanon 0x37 = true ∧ isCanon 0x38 = true := by
  decide

theorem witness_AlphaReturnsTheCharacter :
    (withArg 31).arg.toNat < 32 ∧ 32 ≤ (withArg 32).arg.toNat := by decide

theorem witness_TimestampOverflowRule : isCanon 0x37 = true ∧ isCanon 0x38 = true := by decide

theorem witness_TimestampIsTheSymbolsValue :
    ([31, 31, 31, 31, 31, 31, 31, 31, 31, 31] : List Nat).length = 10 ∧
    (∀ x ∈ ([31, 31, 31, 31, 31, 31, 31, 31, 31, 31] : List Nat), x < 32) ∧
    decodeTs (codes "7ZZZZZZZZZ") = .ok [0xFF, 0xFF, 0xFF, 0xFF, 0xFF, 0xFF] ∧
    2 ^ 48 - 1 < 2 ^ 48 := by decide +kernel

theorem witness_RandomnessIsTheSymbolsValue :
    (∀ x ∈ List.replicate 16 31, x < 32) ∧ (List.replicate 16 31).length = 16 ∧
    (codes "ZZZZZZZZZZZZZZZ").length ≠ 16 ∧
    ((codes "000000000000000u").length = 16 ∧ ¬ Canonical (codes "000000000000000u")) ∧
    ((codes "ZZZZZZZZZZZZZZZZ").length = 16 ∧ Canonical (codes "ZZZZZZZZZZZZZZZZ")) ∧
    (List.replicate 10 (0xFF : Byte)).length = 10 := by decide +kernel

theorem witness_ByteEquationsOfTheDatapath :
    (([7, 31, 31, 31, 31, 31, 31, 31, 31, 31] : List Nat).length = 10 ∧
      (∀ x ∈ ([7, 31, 31, 31, 31, 31, 31, 31, 31, 31] : List Nat), x < 32) ∧
      ([7, 31, 31, 31, 31, 31, 31, 31, 31, 31] : List Nat).getD 0 0 ≤ 7) ∧
    (List.replicate 16 31).length = 16 ∧ ∀ x ∈ List.replicate 16 31, x < 32 := by decide

/-- V4: the largest string decodes, and two strings that agree below symbol 2 exist. -/
theorem witness_UlidBitMap :
    decodeUlid (codes "7ZZZZZZZZZZZZZZZZZZZZZZZZZ") = .ok (List.replicate 16 0xFF) ∧
    decodeUlid (codes "7Z000000000000000000000000") = .ok (0xFF :: List.replicate 15 0x00) ∧
    ∀ i, (2 + 8 * 0) / 5 ≤ i → i ≤ (9 + 8 * 0) / 5 →
      (codes "7ZZZZZZZZZZZZZZZZZZZZZZZZZ").getD i 0 = (codes "7Z000000000000000000000000").getD i 0 := by
  refine ⟨by decide +kernel, by decide +kernel, fun i _ h => ?_⟩
  have hi : i < 2 := by omega
  interval_cases i <;> decide +kernel

/-- The four cases of a string at their boundaries (V4, V9). -/
theorem witness_UlidDecodesExactlyWhenValid :
    (codes "0000000000000000000000000").length ≠ 26 ∧
    ((codes "0000000000000000000000000I").length = 26 ∧
      ¬ Canonical (codes "0000000000000000000000000I")) ∧
    ((codes "8ZZZZZZZZZZZZZZZZZZZZZZZZZ").length = 26 ∧
      Canonical (codes "8ZZZZZZZZZZZZZZZZZZZZZZZZZ") ∧
      ¬ StartsLow (codes "8ZZZZZZZZZZZZZZZZZZZZZZZZZ")) ∧
    ((codes "7ZZZZZZZZZZZZZZZZZZZZZZZZZ").length = 26 ∧
      Canonical (codes "7ZZZZZZZZZZZZZZZZZZZZZZZZZ") ∧
      StartsLow (codes "7ZZZZZZZZZZZZZZZZZZZZZZZZZ")) := by decide +kernel

theorem witness_UlidDecodingIsABijection :
    (List.replicate 16 (0x00 : Byte)).length = 16 ∧
      decodeUlid (codes "00000000000000000000000000") = .ok (List.replicate 16 0x00) := by
  decide +kernel

theorem witness_UlidDecodeSplitsIntoItsSegments :
    decodeUlid (codes "10000000000000000000000000") = .ok (0x20 :: List.replicate 15 0x00) := by
  decide +kernel

/-- V8: two successes, in order. -/
theorem witness_UlidDecodingKeepsOrder :
    decodeUlid (codes "00000000000000000000000000") = .ok (List.replicate 16 0x00) ∧
      decodeUlid (codes "10000000000000000000000000") = .ok (0x20 :: List.replicate 15 0x00) ∧
      codes "00000000000000000000000000" < codes "10000000000000000000000000" := by decide +kernel

theorem witness_DecodeCommandOutcome :
    (v1.ilen = 26 ∧ Canonical (v1.ibuf.toList.take 26) ∧ StartsLow (v1.ibuf.toList.take 26)) ∧
    (holding "0000000000000000000000000").ilen ≠ 26 ∧
    ((holding "L0000000000000000000000000").ilen = 26 ∧
      ¬ Canonical ((holding "L0000000000000000000000000").ibuf.toList.take 26)) ∧
    ((holding "80000000000000000000000000").ilen = 26 ∧
      Canonical ((holding "80000000000000000000000000").ibuf.toList.take 26) ∧
      ¬ StartsLow ((holding "80000000000000000000000000").ibuf.toList.take 26)) := by decide +kernel

theorem witness_DectsCommandOutcome :
    ((holding "7ZZZZZZZZZ").ilen = 10 ∧ Canonical ((holding "7ZZZZZZZZZ").ibuf.toList.take 10) ∧
      StartsLow ((holding "7ZZZZZZZZZ").ibuf.toList.take 10)) ∧
    v1.ilen ≠ 10 ∧
    ((holding "000000000o").ilen = 10 ∧ ¬ Canonical ((holding "000000000o").ibuf.toList.take 10)) ∧
    ((holding "8000000000").ilen = 10 ∧ Canonical ((holding "8000000000").ibuf.toList.take 10) ∧
      ¬ StartsLow ((holding "8000000000").ibuf.toList.take 10)) := by decide +kernel

theorem witness_DecrndCommandOutcome :
    ((holding "ZZZZZZZZZZZZZZZZ").ilen = 16 ∧
      Canonical ((holding "ZZZZZZZZZZZZZZZZ").ibuf.toList.take 16)) ∧
    v1.ilen ≠ 16 ∧
    ((holding "000000000000000u").ilen = 16 ∧
      ¬ Canonical ((holding "000000000000000u").ibuf.toList.take 16)) := by decide +kernel

theorem witness_PresentedStringDecodesAsItself : State.reset.pending = [] := by decide

theorem witness_Base64LengthAndPadding :
    (List.replicate 16 (0x00 : Byte)).length = 16 ∧ (List.replicate 32 (0x00 : Byte)).length = 32 := by
  decide

theorem witness_Base64IsInvertible :
    (base64 [0x4D, 0x61])[2]? = some 0x45 ∧ (base64 [0x4D, 0x61])[3]? = some 0x3D ∧
      base64 [0x4D, 0x61] = base64 [0x4D, 0x61] := by decide

theorem witness_Base64CommandOutcome :
    ({ State.reset with ilen := 32 } : State).ilen.toNat ≤ 32 ∧
      ({ State.reset with olen := 16 } : State).olen.toNat ≤ 16 ∧
      32 < ({ State.reset with ilen := 33 } : State).ilen.toNat := by decide

theorem witness_DecodeThenRenderGivesItsText :
    ({ v1 with pending := [.write 0x22 0x01, .write 0x22 0x14] } : State).pending =
      .write 0x22 0x01 :: .write 0x22 0x14 :: [] := by decide

/-- The invariants' premise is met at reset (and so is the conclusion of R35 there). -/
theorem witness_EveryStepKeepsTheInvariants :
    State.reset.DecodedOk ∧ State.reset.TextOk ∧ State.reset.StatusOk ∧ State.reset.olen ≠ 16 ∧
      ∃ t, step { State.reset with pending := [.write 0x22 0x05] } = .next t := by
  refine ⟨by decide, by decide, by decide, by decide, _, rfl⟩

theorem witness_ProgramEndsAfterItsAccesses :
    2 ≤ ({ State.reset with pending := [.write 0x22 0x05, .read 0x24] } : State).pending.length := by
  decide

theorem witness_ResultsPersistUntilRewritten :
    ∃ t, step { withArg 0x30 with pending := [.write 0x22 0x05] } = .next t ∧
      t.status ≠ (withArg 0x30).status ∧
      (∀ r, HostAccess.write 0x22 0x05 ≠ .reset r) ∧ HostAccess.write 0x22 0x05 ≠ .write 0x22 0x07 :=
  ⟨_, rfl, by decide, by simp, by decide⟩

theorem witness_DoneLatchesUntilReset :
    ([.write 0x22 0x08, .write 0x22 0x00, .write 0x22 0x07, .reset .powerOn, .read 0x23] :
      List HostAccess).all (fun x => ({ v1 with pending := [x] } : State).pending == [x]) = true := by
  decide

theorem witness_StatusFollowsTheErrorPriority :
    ({ v1 with pending := [.write 0x22 0x01] } : State).pending = .write 0x22 0x01 :: [] := by decide

theorem witness_ErrorCodesOfEachCommand :
    (∃ t, exec .decode v1 = .next t) ∧ (∃ t, exec .dects v1 = .next t) ∧
    (∃ t, exec .decrnd v1 = .next t) ∧ (∃ t, exec (.b64 .obuf) v1 = .next t) ∧
    (∃ t, exec .alpha v1 = .next t) ∧ ∃ t, exec .lookup v1 = .next t := by
  refine ⟨?_, ?_, ?_, ?_, ?_, ?_⟩ <;> exact (exec_cases _ v1).imp fun _ h => h.1

/-- V9: a decode that ends with an error, and V7: one that ends as `ILLEGAL_COMMAND`. -/
theorem witness_NoErrorLeavesAPartialResult :
    (∃ t, step { holding "L" with pending := [.write 0x22 0x01] } = .next t ∧
      t.errField.toNat ∈ [1, 2, 3]) ∧
    ∃ t, step { withArg 0x20 with pending := [.write 0x22 0x06] } = .next t ∧ t.errField.toNat = 4 := by
  refine ⟨⟨_, rfl, by decide +kernel⟩, ⟨_, rfl, by decide +kernel⟩⟩

/-- Two states that differ only above the range that `DECTS` reads. -/
theorem witness_UnreadRegistersNeverMatter :
    (holding "7ZZZZZZZZZ").ilen = { holding "7ZZZZZZZZZu" with ilen := 10 }.ilen ∧
    (holding "7ZZZZZZZZZ").ibuf.toList.take 10 =
      { holding "7ZZZZZZZZZu" with ilen := 10 }.ibuf.toList.take 10 ∧
    (holding "7ZZZZZZZZZ").ibuf ≠ { holding "7ZZZZZZZZZu" with ilen := 10 }.ibuf ∧
    (holding "7ZZZZZZZZZ").olen = { holding "7ZZZZZZZZZu" with ilen := 10 }.olen ∧
    (holding "7ZZZZZZZZZ").arg = { holding "7ZZZZZZZZZu" with ilen := 10 }.arg := by decide +kernel

theorem witness_CommandsLeaveOtherAddressesAlone :
    ∃ t, exec .decode v1 = .next t ∧ writes .decode 0x40 = false ∧ writes .decode 0x2F = false :=
  (exec_cases .decode v1).imp fun _ h => ⟨h.1, by decide, by decide⟩

end Sys2Proof.Tests
end

section
/-! What one access of the host, one command and one step can do, said once. -/

namespace Sys2Proof.Machine

/-- Everything an access can do to the state: each kind of access with the state it leaves (R38–R41,
R58, R60, R112). -/
inductive Performs (s : State) : HostAccess → State → Prop
  | read (a : Byte) : Performs s (.read a) (performRead a s)
  | store (a v : Byte) (r : Reg) (found : locate a = some r) (other : r ≠ .cmd) :
      Performs s (.write a v) (s.put r v)
  | reserved (a v : Byte) (free : locate a = none) : Performs s (.write a v) s
  | command (v : Byte) (t : State) (runs : runCommand v s = .next t) : Performs s (.write 0x22 v) t
  | reset (r : ResetSource) : Performs s (.reset r) s.clear

/-- A write to `CMD` runs the command that its byte encodes, or ends as `ILLEGAL_COMMAND` (R58). -/
theorem runCommand_inv {v : Byte} {s t : State} (h : runCommand v s = .next t) :
    (∃ i, decode v = .ok i ∧ exec i (s.put .cmd v) = .next t) ∨
    ((∃ why, decode v = .error why) ∧ t = (s.put .cmd v).raise .illegalCommand) := by
  cases hd : decode v with
  | ok i =>
    rw [runCommand_legal hd] at h
    exact .inl ⟨i, rfl, h⟩
  | error why =>
    rw [runCommand_illegal hd] at h
    cases h
    exact .inr ⟨⟨why, rfl⟩, rfl⟩

theorem performs_of_perform {x : HostAccess} {s t : State} (h : perform x s = .next t) :
    Performs s x t := by
  cases x with
  | read a => cases h; exact .read a
  | reset r => cases h; exact .reset r
  | write a v =>
    rw [perform] at h
    obtain ⟨ha, hw⟩ | ⟨r, hr, ha, hw⟩ | ⟨ha, hw⟩ := performWrite_cases a v s
    · rw [hw] at h
      obtain rfl : (0x22 : Byte) = a := addr_of_locate ha
      exact .command v t h
    · rw [hw] at h
      cases h
      exact .store a v r ha hr
    · rw [hw] at h
      cases h
      exact .reserved a v ha

/-- The step of a state with an access pending performs that access. -/
theorem performs_of_step {s t : State} {x : HostAccess} {rest : List HostAccess}
    (hp : s.pending = x :: rest) (h : step s = .next t) : Performs { s with pending := rest } x t :=
  performs_of_perform (step_access hp ▸ h)

/-- Every state has a next state (R103). -/
theorem step_next (s : State) : ∃ t, step s = .next t := by
  cases hp : s.pending with
  | nil => exact ⟨s, step_idle hp⟩
  | cons x rest => rw [step_access hp]; exact perform_next x _

/-- A command's next state is of one of the seven kinds of result. -/
theorem execKind_of_exec {i : Instr} {s t : State} (h : exec i s = .next t) : ExecKind i s t := by
  obtain ⟨u, hu, hk⟩ := exec_cases i s
  rw [hu] at h
  cases h
  exact hk

/-- A step with a write to `CMD` pending runs the byte's command. -/
theorem step_command {s : State} {v : Byte} {rest : List HostAccess}
    (hp : s.pending = .write 0x22 v :: rest) :
    step s = runCommand v { s with pending := rest } := by
  rw [step_access hp, perform_command]

end Sys2Proof.Machine
end

section
/-! The invariants of R35: at reset, and kept by every operation, command, access and step. -/

namespace Sys2Proof.Machine

/-! ### The operations of the state -/

/-- The invariants speak of the result registers and `STATUS` only (R35). -/
theorem State.Inv.congr {s t : State} (h : s.Inv) (hobuf : t.obuf = s.obuf) (holen : t.olen = s.olen)
    (htbuf : t.tbuf = s.tbuf) (htlen : t.tlen = s.tlen) (hstatus : t.status = s.status) : t.Inv := by
  obtain ⟨hd, ht, hs, hu⟩ := h
  constructor
  · simpa only [State.DecodedOk, hobuf, holen] using hd
  · simpa only [State.TextOk, htbuf, htlen] using ht
  · simpa only [State.StatusOk, State.reservedField, State.errField, State.done, hstatus] using hs
  · simpa only [State.UlidOk, hobuf, holen] using hu

theorem statusOk_of_completed {s : State} (h : s.status = statusOk) : s.StatusOk := by
  rw [State.StatusOk, State.reservedField, State.errField, State.done, h]
  decide

theorem statusOk_of_error {s : State} {e : ErrorCode} (h : s.status = statusError e) :
    s.StatusOk := by
  rw [State.StatusOk, State.reservedField, State.errField, State.done, h]
  cases e <;> decide

/-- Above the end of the list a padded buffer is zero (R27, R29). -/
theorem padded_above {n : Nat} {l : List Byte} (i : Fin n) (h : l.length ≤ i.val) :
    (padded n l)[i] = 0 := by
  rw [Fin.getElem_fin, padded_getElem, List.getD_eq_default _ _ h]

theorem inv_reset : State.reset.Inv where
  decoded := by decide
  text := by decide
  status := by decide
  ulid := fun h => absurd h (by decide)

theorem State.Inv.put {s : State} (h : s.Inv) (r : Reg) (v : Byte) : (s.put r v).Inv :=
  h.congr (by simp) (by simp) (by simp) (by simp) (by simp)

theorem State.Inv.clear (s : State) : s.clear.Inv :=
  inv_reset.congr rfl rfl rfl rfl rfl

theorem State.Inv.setRes {s : State} (h : s.Inv) (v : Byte) : (s.setRes v).Inv :=
  ⟨h.decoded, h.text, statusOk_of_completed rfl, h.ulid⟩

/-- A data error leaves `OLEN` 0 and `OBUF` zero; `ILLEGAL_COMMAND` leaves both alone (R104). -/
theorem State.Inv.raise {s : State} (h : s.Inv) (e : ErrorCode) : (s.raise e).Inv := by
  have htext : (s.raise e).TextOk := by simpa only [State.TextOk, raise_tlen, raise_tbuf] using h.text
  have hstatus : (s.raise e).StatusOk := statusOk_of_error (raise_status s e)
  by_cases he : e = .illegalCommand
  · subst he
    exact ⟨h.decoded, htext, hstatus, h.ulid⟩
  · have hobuf := raise_data_obuf s e he
    have holen := raise_data_olen s e he
    refine ⟨?_, htext, hstatus, fun h16 => absurd (holen.symm.trans h16) (by decide)⟩
    rw [State.DecodedOk, holen, hobuf]
    exact ⟨by decide, fun i _ => padded_above i (Nat.zero_le _)⟩

/-- A text whose length is a multiple of 4 up to 44 may be stored (R35 (b)). -/
theorem State.Inv.setText {s : State} (h : s.Inv) {x : List Byte} (hdvd : x.length % 4 = 0)
    (hle : x.length ≤ Config.tbufSize) : (s.setText x).Inv := by
  have htlen : (s.setText x).tlen.toNat = x.length := by
    rw [setText_tlen, BitVec.toNat_ofNat]
    exact Nat.mod_eq_of_lt (by rw [Config.tbufSize] at hle; omega)
  refine ⟨h.decoded, ?_, statusOk_of_completed rfl, h.ulid⟩
  rw [State.TextOk, htlen]
  exact ⟨hdvd, hle, fun i hi => padded_above i hi⟩

/-- As many bytes as `OLEN` says may be stored, and as a ULID only what `decodeUlid` gives
(R35 (a), (e)). -/
theorem State.Inv.setDecoded {s : State} (h : s.Inv) {n : Byte} {b : List Byte}
    (hn : n ∈ ([6, 10, 16] : List Byte)) (hlen : b.length = n.toNat)
    (hulid : n = 16 → ∃ u, decodeUlid u = .ok b) : (s.setDecoded n b).Inv := by
  refine ⟨⟨List.mem_cons_of_mem _ hn, fun i hi => padded_above i (hlen ▸ hi)⟩, h.text,
    statusOk_of_completed rfl, fun h16 => ?_⟩
  obtain rfl : n = 16 := h16
  have hfull : (padded Config.obufSize b).toList = b := padded_toList _ b hlen
  rw [setDecoded_obuf, hfull]
  refine ⟨hulid rfl, ?_⟩
  have hbound := bytesValue_lt (b.take 6)
  have hsix : (b.take 6).length = 6 := by simp [hlen]
  rw [hsix] at hbound
  exact hbound

/-! ### How many bytes the decoders and the renderer give -/

theorem decodeTs_length {t b : List Byte} (h : decodeTs t = .ok b) : b.length = 6 := by
  obtain ⟨-, -, -, rfl⟩ := (decodeTs_ok_iff t b).1 h
  exact bigEndian_length _ _

theorem decodeRnd_length {r b : List Byte} (h : decodeRnd r = .ok b) : b.length = 10 := by
  obtain ⟨-, -, rfl⟩ := (decodeRnd_ok_iff r b).1 h
  exact bigEndian_length _ _

/-- A successful top-level decode is its two sub-decoders' bytes, one after the other (R81). -/
theorem decodeUlid_ok {u b : List Byte} (h : decodeUlid u = .ok b) :
    ∃ ts rnd, decodeTs (u.take 10) = .ok ts ∧ decodeRnd (u.drop 10) = .ok rnd ∧ b = ts ++ rnd := by
  unfold decodeUlid at h
  split_ifs at h
  split at h
  · cases h
  · next ts hts =>
    split at h
    · cases h
    · next rnd hrnd =>
      cases h
      exact ⟨ts, rnd, hts, hrnd, rfl⟩

theorem decodeUlid_length {u b : List Byte} (h : decodeUlid u = .ok b) : b.length = 16 := by
  obtain ⟨ts, rnd, hts, hrnd, rfl⟩ := decodeUlid_ok h
  rw [List.length_append, decodeTs_length hts, decodeRnd_length hrnd]

/-- `base64` gives four characters for each group of three bytes begun (R90). -/
theorem base64_length (d : List Byte) : (base64 d).length = 4 * ((d.length + 2) / 3) := by
  induction d using base64.induct with
  | case1 a b c rest ih =>
    simp only [base64_group, List.length_cons, ih]
    omega
  | case2 a b => simp [base64]
  | case3 a => simp [base64]
  | case4 => simp [base64]

/-- `B64` never has more than 32 bytes to render (R91). -/
theorem b64Input_length_le (src : Source) (s : State) : (s.b64Input src).length ≤ 32 := by
  cases src <;> simp [State.b64Input, Config.ibufSize, Config.obufSize]

/-! ### Commands, accesses and the step -/

theorem State.Inv.runDecoder {s : State} (h : s.Inv) (n : Nat) {f : List Byte → Result (List Byte)}
    {olen : Byte} (hn : olen ∈ ([6, 10, 16] : List Byte))
    (hlen : ∀ u b, f u = .ok b → b.length = olen.toNat)
    (hulid : olen = 16 → ∀ u b, f u = .ok b → decodeUlid u = .ok b) :
    (runDecoder n f olen s).Inv := by
  obtain ⟨-, b, hb, hr⟩ | ⟨-, e, -, hr⟩ | ⟨-, hr⟩ := runDecoder_cases n f olen s
  · rw [hr]
    exact h.setDecoded hn (hlen _ b hb) fun h16 => ⟨_, hulid h16 _ b hb⟩
  · rw [hr]
    exact h.raise e
  · rw [hr]
    exact h.raise _

theorem State.Inv.exec {s t : State} (h : s.Inv) {i : Instr} (ht : exec i s = .next t) : t.Inv := by
  cases i with
  | nop => cases ht; exact h
  | clr => cases ht; exact .clear s
  | lookup => cases ht; exact h.setRes _
  | alpha =>
    obtain ⟨-, hx⟩ | ⟨-, hx⟩ := execAlpha_cases s <;> cases hx.symm.trans ht
    · exact h.setRes _
    · exact h.raise _
  | b64 src =>
    obtain ⟨-, hx⟩ | ⟨-, hx⟩ := execB64_cases src s <;> cases hx.symm.trans ht
    · have hin := b64Input_length_le src s
      have hout := base64_length (s.b64Input src)
      exact h.setText (by omega) (by rw [hout, Config.tbufSize]; omega)
    · exact h.raise _
  | decode =>
    cases ht
    exact h.runDecoder _ (by decide) (fun _ _ => decodeUlid_length) fun _ _ _ hb => hb
  | dects =>
    cases ht
    exact h.runDecoder _ (by decide) (fun _ _ => decodeTs_length) fun h16 => absurd h16 (by decide)
  | decrnd =>
    cases ht
    exact h.runDecoder _ (by decide) (fun _ _ => decodeRnd_length) fun h16 => absurd h16 (by decide)

theorem State.Inv.runCommand {s t : State} {v : Byte} (h : s.Inv) (hr : runCommand v s = .next t) :
    t.Inv := by
  obtain ⟨i, -, hx⟩ | ⟨-, rfl⟩ := runCommand_inv hr
  · exact (h.put .cmd v).exec hx
  · exact (h.put .cmd v).raise _

theorem State.Inv.performs {s t : State} {x : HostAccess} (h : s.Inv) (hx : Performs s x t) :
    t.Inv := by
  cases hx with
  | read a => exact h.congr rfl rfl rfl rfl rfl
  | store a v r => exact h.put r v
  | reserved => exact h
  | command v _ runs => exact h.runCommand runs
  | reset => exact .clear s

/-- Settles O49, by what the pending access does, and for a command by what each operation of the state
keeps. -/
theorem everyStepKeepsTheInvariants : Obligations.EveryStepKeepsTheInvariants := by
  intro s t h ht
  cases hp : s.pending with
  | nil =>
    cases (step_idle hp).symm.trans ht
    exact h
  | cons x rest =>
    have hs : State.Inv { s with pending := rest } := h.congr rfl rfl rfl rfl rfl
    exact hs.performs (performs_of_step hp ht)

/-- Settles O48: nothing is decoded or rendered at reset, and `STATUS` is 0x00. -/
theorem invariantsHoldAtReset : Obligations.InvariantsHoldAtReset := inv_reset

end Sys2Proof.Machine
end

section
/-! `CMD` and `STATUS.DONE` after an access (R22, R25), the placed word (R18) and the reset state
(R34). -/

namespace Sys2Proof.Machine

/-! ### The command byte (R54–R57) -/

theorem decode_encode (i : Instr) : decode (encode i) = .ok i := by
  cases i with
  | b64 src => cases src <;> decide
  | _ => decide

theorem encode_of_decode {v : Byte} {i : Instr} (h : decode v = .ok i) : encode i = v := by
  have all : ∀ v : Byte, (decode v).toOption.all (fun i => encode i == v) = true := by decide
  have := all v
  rw [h] at this
  simpa [Except.toOption] using this

theorem decode_of_decodeTableWord {nbits w : Nat} {i : Instr} (h : decodeTableWord nbits w = some i) :
    decode (BitVec.ofNat 8 (w % 2 ^ nbits)) = .ok i := by
  unfold decodeTableWord at h
  split at h
  · next j hj => cases h; exact hj
  · cases h

/-! ### What a command leaves in `CMD` and in `DONE` -/

/-- No command but `CLR` changes `CMD` after the write has set it (R22, R94). -/
theorem cmd_of_execKind {i : Instr} {s t : State} (h : ExecKind i s t) (hi : i ≠ .clr) :
    t.cmd = s.cmd := by
  obtain ⟨-, rfl⟩ | ⟨hclr, -⟩ | ⟨-, v, rfl⟩ | ⟨-, n, b, rfl⟩ | ⟨-, x, rfl⟩ | ⟨-, e, -, rfl⟩ |
    ⟨-, rfl⟩ := h
  case inr.inl => exact absurd hclr hi
  all_goals simp

theorem done_of_completed {s : State} (h : s.status = statusOk) : s.done = true := by
  rw [State.done, h]
  decide

theorem done_of_error {s : State} {e : ErrorCode} (h : s.status = statusError e) :
    s.done = true := by
  rw [State.done, h]
  cases e <;> decide

theorem done_clear (s : State) : s.clear.done = false := by
  rw [State.done, clear_status]
  decide

/-- Every command but `NOP` and `CLR` completes with `DONE` = 1 (R25). -/
theorem done_of_execKind {i : Instr} {s t : State} (h : ExecKind i s t) (hnop : i ≠ .nop)
    (hclr : i ≠ .clr) : t.done = true := by
  obtain ⟨hi, -⟩ | ⟨hi, -⟩ | ⟨-, v, rfl⟩ | ⟨-, n, b, rfl⟩ | ⟨-, x, rfl⟩ | ⟨-, e, -, rfl⟩ |
    ⟨-, rfl⟩ := h
  · exact absurd hi hnop
  · exact absurd hi hclr
  · exact done_of_completed (setRes_status s v)
  · exact done_of_completed (setDecoded_status s n b)
  · exact done_of_completed (setText_status s x)
  · exact done_of_error (raise_status s e)
  · exact done_of_error (raise_status s _)

/-! ### What a write to `CMD` leaves -/

theorem runCommand_nop (s : State) : runCommand 0x00 s = .next (s.put .cmd 0x00) :=
  runCommand_legal (decode_encode .nop) s

theorem runCommand_clr (s : State) : runCommand 0x07 s = .next s.clear :=
  runCommand_legal (decode_encode .clr) s

theorem cmd_of_runCommand {v : Byte} {s t : State} (h : runCommand v s = .next t) :
    t.cmd = if v = 0x07 then 0x00 else v := by
  by_cases hv : v = 0x07
  · subst hv
    cases (runCommand_clr s).symm.trans h
    rfl
  · rw [if_neg hv]
    obtain ⟨i, hi, hx⟩ | ⟨-, rfl⟩ := runCommand_inv h
    · have hclr : i ≠ .clr := by
        rintro rfl
        exact hv (encode_of_decode hi).symm
      exact (cmd_of_execKind (execKind_of_exec hx) hclr).trans (putCmd_cmd s v)
    · rw [raise_cmd, putCmd_cmd]

/-- A write to `CMD` of any byte but those of `NOP` and `CLR`, legal or not, leaves `DONE` = 1 (R25). -/
theorem done_of_runCommand {v : Byte} {s t : State} (h : runCommand v s = .next t) (hnop : v ≠ 0x00)
    (hclr : v ≠ 0x07) : t.done = true := by
  obtain ⟨i, hi, hx⟩ | ⟨-, rfl⟩ := runCommand_inv h
  · refine done_of_execKind (execKind_of_exec hx) ?_ ?_ <;> rintro rfl
    · exact hnop (encode_of_decode hi).symm
    · exact hclr (encode_of_decode hi).symm
  · exact done_of_error (raise_status _ _)

/-- An access that neither writes `CMD` nor resets keeps `CMD` and `STATUS` (R22, R25). -/
theorem cmd_status_of_performs {x : HostAccess} {s t : State} (h : Performs s x t)
    (hwrite : ∀ v, x ≠ .write 0x22 v) (hreset : ∀ r, x ≠ .reset r) :
    t.cmd = s.cmd ∧ t.status = s.status := by
  cases h with
  | read a => exact ⟨rfl, rfl⟩
  | store a v r found other => exact ⟨get_put_other s r .cmd v other.symm, put_status s r v⟩
  | reserved => exact ⟨rfl, rfl⟩
  | command v => exact absurd rfl (hwrite v)
  | reset r => exact absurd rfl (hreset r)

/-! ### The statements -/

/-- Settles O13: `runCommand` leaves the byte or `CLR`'s 0x00, and every other access keeps `CMD`. -/
theorem commandRegisterReadsLastByte : Obligations.CommandRegisterReadsLastByte := by
  refine ⟨fun s v rest hp => ?_, fun s t x rest hp ht hwrite hreset => ?_, rfl⟩
  · obtain ⟨t, ht⟩ := step_next s
    have hr := (step_command hp).symm.trans ht
    exact ⟨t, ht, (hostRead_addr t .cmd).trans (cmd_of_runCommand hr)⟩
  · exact (cmd_status_of_performs (performs_of_step hp ht) hwrite hreset).1

/-- Settles O53, by the five kinds of access that the statement separates. -/
theorem doneLatchesUntilReset : Obligations.DoneLatchesUntilReset := by
  intro s x rest hp
  obtain ⟨t, ht⟩ := step_next s
  refine ⟨t, ht, ?_, ?_, ?_, ?_, fun hwrite hreset => ?_⟩
  · rintro v rfl hnop hclr
    exact done_of_runCommand ((step_command hp).symm.trans ht) hnop hclr
  · rintro rfl
    rw [step_command hp, runCommand_nop] at ht
    cases ht
    rfl
  · rintro rfl
    rw [step_command hp, runCommand_clr] at ht
    cases ht
    exact done_clear _
  · rintro r rfl
    rw [step_access hp] at ht
    cases ht
    exact done_clear _
  · obtain ⟨-, hstatus⟩ := cmd_status_of_performs (performs_of_step hp ht) hwrite hreset
    rw [State.done, State.done, hstatus]

/-- Settles O7: the placed word is the write to `CMD` that the next step performs. -/
theorem placedWordIsTheNextCommand : Obligations.PlacedWordIsTheNextCommand := by
  intro s nbits w i hw
  have hi := decode_of_decodeTableWord hw
  rw [encode_of_decode hi]
  exact (step_command rfl).trans (runCommand_legal hi s)

/-- `ALPHABET` is the string of R64, entry by entry. -/
theorem alphabetText_getElem? (i : Fin 32) :
    Claims.alphabetText[i.val]? = some (alphabetAt i.val) := by
  revert i
  decide

/-- Settles O19: the registers by the reset state itself, the ROMs by the commands that read them. -/
theorem resetLeavesEveryRegisterZero : Obligations.ResetLeavesEveryRegisterZero := by
  refine ⟨by decide, rfl, rfl, rfl, rfl, rfl, by decide, rfl, by decide, rfl,
    fun b => ⟨_, rfl, rfl⟩, fun i => ?_⟩
  have harg : (BitVec.ofNat 8 i.val).toNat = i.val := by
    rw [BitVec.toNat_ofNat]
    exact Nat.mod_eq_of_lt (by omega)
  obtain ⟨-, hx⟩ | ⟨hge, -⟩ := execAlpha_cases { State.reset with arg := BitVec.ofNat 8 i.val }
  · exact ⟨_, hx, by rw [setRes_res, harg]; exact alphabetText_getElem? i⟩
  · exact absurd (harg ▸ hge) (by omega)

end Sys2Proof.Machine
end

section
/-! The register space as the host sees it: what every address reads as (R37, R38), what a read and a
write to each kind of address do (R39–R41), reads after writes (R47) and the split of a wider write
(R42). -/

namespace Sys2Proof.Machine

/-! ### Which register stands where (R37) -/

/-- The addresses up to 0x21 are the operand registers `IBUF`, `ILEN` and `ARG`. -/
theorem locate_operand {a : Byte} (h : a.toNat ≤ 0x21) :
    ∃ r, locate a = some r ∧ r.writable = true ∧ r ≠ .cmd := by
  have all : ∀ a : Byte, a.toNat ≤ 0x21 →
      (locate a).any (fun r => r.writable && r != .cmd) = true := by decide
  simpa [Option.any_eq_true] using all a h

/-- `STATUS` to `TLEN`, `OBUF` and `TBUF` are the read-only registers (R39). -/
theorem locate_readOnly {a : Byte}
    (h : 0x23 ≤ a.toNat ∧ a.toNat ≤ 0x26 ∨ 0x30 ≤ a.toNat ∧ a.toNat ≤ 0x6B) :
    ∃ r, locate a = some r ∧ r.writable = false := by
  have all : ∀ a : Byte, 0x23 ≤ a.toNat ∧ a.toNat ≤ 0x26 ∨ 0x30 ≤ a.toNat ∧ a.toNat ≤ 0x6B →
      (locate a).any (fun r => !r.writable) = true := by decide
  simpa [Option.any_eq_true] using all a h

/-- No register stands in the two reserved ranges (R38). -/
theorem locate_reserved {a : Byte}
    (h : 0x27 ≤ a.toNat ∧ a.toNat ≤ 0x2F ∨ 0x6C ≤ a.toNat) : locate a = none := by
  have all : ∀ a : Byte, 0x27 ≤ a.toNat ∧ a.toNat ≤ 0x2F ∨ 0x6C ≤ a.toNat → locate a = none := by
    decide
  exact all a h

/-- The address of a buffer's byte is the buffer's base plus the index. -/
theorem ibuf_addr (i : Fin 32) : (Reg.ibuf i).addr = BitVec.ofNat 8 (0x00 + i.val) :=
  (BitVec.ofNat_add 0x00 i.val).symm
theorem obuf_addr (i : Fin 16) : (Reg.obuf i).addr = BitVec.ofNat 8 (0x30 + i.val) :=
  (BitVec.ofNat_add 0x30 i.val).symm
theorem tbuf_addr (i : Fin 44) : (Reg.tbuf i).addr = BitVec.ofNat 8 (0x40 + i.val) :=
  (BitVec.ofNat_add 0x40 i.val).symm

/-- After reset every address reads 0x00: no cell is listed (R34, R38). -/
theorem hostRead_reset (a : Byte) : State.reset.hostRead a = 0x00 := by
  rw [← read_cells, cells_reset]
  rfl

/-! ### A stored byte, through the host's reads (R41) -/

theorem hostRead_put_same (s : State) {a : Byte} {r : Reg} (v : Byte) (ha : locate a = some r)
    (hr : r.writable = true) : (s.put r v).hostRead a = v := by
  obtain rfl := addr_of_locate ha
  rw [hostRead_addr, get_put_same s r v hr]

theorem hostRead_put_other (s : State) {a b : Byte} {r : Reg} (v : Byte) (ha : locate a = some r)
    (hb : b ≠ a) : (s.put r v).hostRead b = s.hostRead b := by
  cases hq : locate b with
  | none => rw [hostRead_reserved _ hq, hostRead_reserved _ hq]
  | some q =>
    obtain rfl := addr_of_locate ha
    obtain rfl := addr_of_locate hq
    have hne : q ≠ r := fun e => hb (e ▸ rfl)
    rw [hostRead_addr, hostRead_addr, get_put_other s r q v hne]

/-! ### The step, by the kind of the pending access -/

theorem perform_store {a : Byte} {r : Reg} (ha : locate a = some r) (hr : r ≠ .cmd) (v : Byte)
    (s : State) : perform (.write a v) s = .next (s.put r v) := by
  obtain ⟨hc, -⟩ | ⟨q, -, hq, h⟩ | ⟨hn, -⟩ := performWrite_cases a v s
  · exact absurd (Option.some.inj (ha.symm.trans hc)) hr
  · obtain rfl : r = q := Option.some.inj (ha.symm.trans hq)
    exact h
  · exact absurd (ha.symm.trans hn) (by simp)

theorem perform_write_reserved {a : Byte} (ha : locate a = none) (v : Byte) (s : State) :
    perform (.write a v) s = .next s := by
  rw [perform, performWrite, ha]

theorem step_read {s : State} {a : Byte} {rest : List HostAccess} (hp : s.pending = .read a :: rest) :
    step s = .next { s with pending := rest, observed := s.observed ++ [s.hostRead a] } := by
  rw [step_access hp, perform, performRead, hostRead_congr s rest s.observed a]

theorem step_store {s : State} {a v : Byte} {r : Reg} {rest : List HostAccess}
    (hp : s.pending = .write a v :: rest) (ha : locate a = some r) (hr : r ≠ .cmd) :
    step s = .next (State.put { s with pending := rest } r v) := by
  rw [step_access hp, perform_store ha hr]

/-- A write to an operand register stores its byte at its address, and every other address reads as
before (R41). -/
theorem step_operandWrite {s : State} {a v : Byte} {rest : List HostAccess} (ha : a.toNat ≤ 0x21)
    (hp : s.pending = .write a v :: rest) :
    ∃ t, step s = .next t ∧ t.hostRead a = v ∧ (∀ b, b ≠ a → t.hostRead b = s.hostRead b) ∧
      t.pending = rest ∧ t.observed = s.observed := by
  obtain ⟨r, hloc, hw, hcmd⟩ := locate_operand ha
  refine ⟨_, step_store hp hloc hcmd, hostRead_put_same _ v hloc hw, fun b hb => ?_,
    put_pending _ r v, put_observed _ r v⟩
  rw [hostRead_put_other _ v hloc hb]
  exact hostRead_congr s rest s.observed b

/-! ### The statements -/

/-- Settles O12, by the step of an operand write. -/
theorem operandWriteStoresItsByteOnly : Obligations.OperandWriteStoresItsByteOnly :=
  fun _ _ _ _ ha hp => step_operandWrite ha hp

/-- Settles O14: the second step reads what the first one stored. -/
theorem readAfterWriteReturnsTheByte : Obligations.ReadAfterWriteReturnsTheByte := by
  intro s a v rest ha hp
  obtain ⟨t, ht, hread, -, hpend, hobs⟩ := step_operandWrite ha hp
  refine ⟨_, (run_succ ht 1).trans (run_one (step_read hpend)), ?_, rfl⟩
  rw [hread, hobs]

/-- Settles O16: a register is the byte that the cells hold at its address. -/
theorem cellsDetermineEveryRegister : Obligations.CellsDetermineEveryRegister := by
  intro s t h r
  rw [← hostRead_addr, ← hostRead_addr, ← read_cells, ← read_cells, h]

/-- Settles O6, by the step that runs a `CMD` write. -/
theorem stepRunsTheDecodedCommand : Obligations.StepRunsTheDecodedCommand :=
  fun _ _ _ _ hp hi => (step_command hp).trans (runCommand_legal hi _)

/-- Settles O8: the state after the first read gives the second read the same byte. -/
theorem readReturnsValueWithoutSideEffect : Obligations.ReadReturnsValueWithoutSideEffect := by
  refine ⟨hostRead_addr, fun s a rest => ⟨step_read, fun hp => ?_⟩⟩
  rw [run_succ (step_read hp) 1, run_one (step_read rfl), hostRead_congr, List.append_assoc]
  rfl

/-- Settles O9: each register is read at its own address, and the rest is reserved. -/
theorem registerMapGivesEveryAddress : Obligations.RegisterMapGivesEveryAddress := by
  intro s
  refine ⟨fun i => ?_, hostRead_addr s .ilen, hostRead_addr s .arg, hostRead_addr s .cmd,
    hostRead_addr s .status, hostRead_addr s .res, hostRead_addr s .olen, hostRead_addr s .tlen,
    fun i => ?_, fun i => ?_, fun n hn => ?_, hostRead_reset⟩
  · exact ibuf_addr i ▸ hostRead_addr s (.ibuf i)
  · exact obuf_addr i ▸ hostRead_addr s (.obuf i)
  · exact tbuf_addr i ▸ hostRead_addr s (.tbuf i)
  · have hval : (BitVec.ofNat 8 n).toNat = n := by
      rw [BitVec.toNat_ofNat]
      exact Nat.mod_eq_of_lt (by omega)
    exact hostRead_reserved s (locate_reserved (by omega))

/-- Settles O10: no register stands at a reserved address. -/
theorem reservedAddressesAreInert : Obligations.ReservedAddressesAreInert := by
  intro s a v rest ha
  have hloc := locate_reserved ha
  refine ⟨fun hp => ?_, fun hp => ?_⟩
  · rw [step_read hp, hostRead_reserved s hloc]
  · rw [step_access hp, perform_write_reserved hloc]

/-- Settles O11: the write finds a read-only register, which keeps its value. -/
theorem readOnlyRegistersIgnoreWrites : Obligations.ReadOnlyRegistersIgnoreWrites := by
  intro s a v rest ha hp
  obtain ⟨r, hloc, hw⟩ := locate_readOnly ha
  have hcmd : r ≠ .cmd := by
    rintro rfl
    exact absurd hw (by decide)
  rw [step_store hp hloc hcmd, put_readOnly _ r v hw]

/-- Settles O17: the split is the bytes with their indices, when they all fit. -/
theorem widerWriteIsItsBytesInAscendingOrder : Obligations.WiderWriteIsItsBytesInAscendingOrder := by
  intro base bytes l h
  unfold splitWrite at h
  split_ifs at h with hfit
  cases h
  refine ⟨by simp, fun i v hi => ⟨?_, ?_⟩⟩
  · obtain ⟨hlt, -⟩ := List.getElem?_eq_some_iff.1 hi
    omega
  · simp [hi, BitVec.ofNat_add]

end Sys2Proof.Machine
end

section
/-! Presenting a string and decoding it (R52, R63, R82): the run of the accesses that write `IBUF` and
`ILEN`, and what `DECODE` then makes of the presented string. -/

namespace Sys2Proof.Machine

/-- A run can be cut in two. -/
theorem run_add {s t : State} {m : Nat} (h : core.run m s = .next t) (n : Nat) :
    core.run (m + n) s = core.run n t := by
  induction m generalizing s with
  | zero =>
    cases h
    rw [Nat.zero_add]
  | succ m ih =>
    obtain ⟨u, hu⟩ := step_next s
    rw [run_succ hu] at h
    rw [Nat.add_right_comm, run_succ hu, ih h]

/-! ### The accesses that present a string (R63) -/

/-- `IBUF[k]` stands at address k (R37). -/
theorem locate_ibuf (k : Nat) (hk : k < 32) :
    locate (BitVec.ofNat 8 k) = some (.ibuf ⟨k, hk⟩) := by
  have h := locate_addr (.ibuf ⟨k, hk⟩)
  rwa [ibuf_addr, Nat.zero_add] at h

/-- Storing at index `k` makes the buffer's first `k` bytes go on with the byte stored. -/
theorem take_succ_set {n k : Nat} (b : Vector Byte n) (hk : k < n) (v : Byte) :
    (b.set k v).toList.take (k + 1) = b.toList.take k ++ [v] := by
  rw [Vector.toList_set, List.take_succ_eq_append_getElem (by simpa using hk)]
  simp [List.take_set_of_le]

/-- The write of the byte at index `k` of a string being presented. -/
theorem step_ibufWrite {s : State} {k : Nat} {v : Byte} {rest : List HostAccess} (hk : k < 32)
    (hp : s.pending = .write (BitVec.ofNat 8 k) v :: rest) :
    ∃ t, step s = .next t ∧ t.pending = rest ∧ t.observed = s.observed ∧
      t.ibuf.toList.take (k + 1) = s.ibuf.toList.take k ++ [v] :=
  ⟨_, step_store hp (locate_ibuf k hk) (by simp), put_pending _ _ v, put_observed _ _ v,
    take_succ_set s.ibuf hk v⟩

/-- Writes of bytes to `IBUF` from index `k` up, one access each. -/
theorem run_ibufWrites_from (bytes : List Byte) (k : Nat) (hk : k + bytes.length ≤ 32) {s : State}
    {rest : List HostAccess}
    (hp : s.pending =
      (bytes.zipIdx k).map (fun p => HostAccess.write (BitVec.ofNat 8 p.2) p.1) ++ rest) :
    ∃ t, core.run bytes.length s = .next t ∧ t.pending = rest ∧ t.observed = s.observed ∧
      t.ibuf.toList.take (k + bytes.length) = s.ibuf.toList.take k ++ bytes := by
  induction bytes generalizing k s with
  | nil => exact ⟨s, rfl, hp, rfl, by simp⟩
  | cons v bytes ih =>
    have hlen : k + (v :: bytes).length = k + 1 + bytes.length := by
      rw [List.length_cons, Nat.add_right_comm, Nat.add_assoc]
    obtain ⟨u, hu, hupend, huobs, huibuf⟩ := step_ibufWrite (by omega) hp
    obtain ⟨t, ht, hpend, hobs, hibuf⟩ := ih (k + 1) (by omega) hupend
    refine ⟨t, (run_succ hu _).trans ht, hpend, hobs.trans huobs, ?_⟩
    rw [hlen, hibuf, huibuf, List.append_assoc, List.singleton_append]

/-- The write of the length of a string being presented. -/
theorem step_ilenWrite {s : State} {v : Byte} {rest : List HostAccess}
    (hp : s.pending = .write Reg.ilen.addr v :: rest) :
    ∃ t, step s = .next t ∧ t.pending = rest ∧ t.observed = s.observed ∧ t.ilen = v ∧
      t.ibuf = s.ibuf :=
  ⟨_, step_store hp (locate_addr .ilen) (by simp), rfl, rfl, rfl, rfl⟩

theorem ldsAccesses_length (text : List Nat) :
    (ldsAccesses text).length = ((text.map charByte).take 32).length + 1 := by
  simp [ldsAccesses, ibufWrites]

/-- After the accesses that present a string `IBUF` holds its characters, as many as fit, and `ILEN`
its length, clamped (R52). -/
theorem run_ldsAccesses (text : List Nat) {s : State} {rest : List HostAccess}
    (hp : s.pending = ldsAccesses text ++ rest) :
    ∃ t, core.run (ldsAccesses text).length s = .next t ∧ t.pending = rest ∧
      t.observed = s.observed ∧ t.ilen.toNat = min text.length 255 ∧
      t.ibuf.toList.take (min 32 text.length) = (text.map charByte).take 32 := by
  have hlen : ((text.map charByte).take 32).length = min 32 text.length := by simp
  rw [ldsAccesses, List.append_assoc] at hp
  obtain ⟨p, hrun, hpend, hobs, hibuf⟩ :=
    run_ibufWrites_from ((text.map charByte).take 32) 0 (by omega) hp
  obtain ⟨t, ht, htpend, htobs, hilen, htibuf⟩ := step_ilenWrite hpend
  rw [hlen, Nat.zero_add] at hibuf
  refine ⟨t, ?_, htpend, htobs.trans hobs, ?_, htibuf ▸ hibuf⟩
  · rw [ldsAccesses_length, run_add hrun, run_one ht]
  · rw [hilen, BitVec.toNat_ofNat]
    exact Nat.mod_eq_of_lt (by omega)

/-! ### `DECODE` on a presented string -/

/-- `ILEN` and `IBUF` hold a string as far as `DECODE` looks at it (R82): they have 26 characters when
the string has, and then its own. -/
def State.Presents (s : State) (u : List Byte) : Prop :=
  (s.ilen.toNat = 26 ↔ u.length = 26) ∧ (u.length = 26 → s.input 26 = u)

/-- The 255 that clamps `ILEN` and the 32 characters that `IBUF` takes are both above 26. -/
theorem presents_of_lds {text : List Nat} {s : State} (hilen : s.ilen.toNat = min text.length 255)
    (hibuf : s.ibuf.toList.take (min 32 text.length) = (text.map charByte).take 32) :
    s.Presents (text.map charByte) := by
  refine ⟨?_, fun h => ?_⟩
  · rw [hilen, List.length_map]
    omega
  · have hmin : min 32 text.length = 26 := by
      rw [List.length_map] at h
      omega
    rw [hmin, List.take_of_length_le (l := text.map charByte) (by omega)] at hibuf
    exact hibuf

/-- `DECODE` leaves what `decodeUlid` gives of the string presented (R81, R82). -/
theorem runDecoder_of_presents {s : State} {u : List Byte} (h : s.Presents u) :
    (∃ b, decodeUlid u = .ok b ∧ runDecoder 26 decodeUlid 16 s = s.setDecoded 16 b) ∨
    ∃ e, decodeUlid u = .err e ∧ runDecoder 26 decodeUlid 16 s = s.raise e := by
  obtain ⟨hlen, hin⟩ := h
  obtain ⟨h26, b, hb, hr⟩ | ⟨h26, e, he, hr⟩ | ⟨h26, hr⟩ := runDecoder_cases 26 decodeUlid 16 s
  · rw [hin (hlen.1 h26)] at hb
    exact .inl ⟨b, hb, hr⟩
  · rw [hin (hlen.1 h26)] at he
    exact .inr ⟨e, he, hr⟩
  · exact .inr ⟨.invalidLength, if_pos (mt hlen.2 h26), hr⟩

/-- The step of a `DECODE` written after a string was presented. -/
theorem step_decode_of_presents {s : State} {u : List Byte} {rest : List HostAccess}
    (hp : s.pending = commandWrite 0x01 :: rest) (h : s.Presents u) :
    ∃ t, step s = .next t ∧ t.pending = rest ∧ t.observed = s.observed ∧
      ((∃ b, decodeUlid u = .ok b ∧ t.obuf.toList = b ∧ t.olen = 16 ∧ t.status = 0x80) ∨
        ∃ e, decodeUlid u = .err e ∧ t.obuf = Vector.replicate 16 0 ∧ t.olen = 0 ∧
          t.status = statusError e) := by
  have hcmd : State.Presents (State.put { s with pending := rest } .cmd 0x01) u := h
  have hstep := (step_command hp).trans (runCommand_legal (decode_encode .decode) _)
  refine ⟨_, hstep, ?_⟩
  obtain ⟨b, hb, hr⟩ | ⟨e, he, hr⟩ := runDecoder_of_presents hcmd
  · exact hr ▸ ⟨rfl, rfl, .inl ⟨b, hb, padded_toList _ b (decodeUlid_length hb), rfl, rfl⟩⟩
  · have hdata := decodeUlid_err he
    exact hr ▸ ⟨raise_pending _ e, raise_observed _ e, .inr ⟨e, he,
      (raise_data_obuf _ e hdata).trans (padded_nil _), raise_data_olen _ e hdata,
      raise_status _ e⟩⟩

/-- Settles O41: the run presents the string, and the last step decodes it. -/
theorem presentedStringDecodesAsItself : Obligations.PresentedStringDecodesAsItself := by
  intro text s hs
  have hload : (State.load (ldsAccesses text ++ [commandWrite 0x01]) s).pending =
      ldsAccesses text ++ [commandWrite 0x01] := by
    rw [load_pending, hs, List.nil_append]
  obtain ⟨p, hrun, hpend, hobs, hilen, hibuf⟩ := run_ldsAccesses text hload
  obtain ⟨t, ht, htpend, htobs, hdecoded⟩ :=
    step_decode_of_presents hpend (presents_of_lds hilen hibuf)
  refine ⟨t, ?_, htpend, htobs.trans hobs, ?_⟩
  · rw [List.length_append, run_add hrun, List.length_singleton, run_one ht]
  · obtain ⟨b, hb, hleft⟩ | ⟨e, he, hleft⟩ := hdecoded
    · rw [hb]
      exact hleft
    · rw [he]
      exact hleft

end Sys2Proof.Machine
end

section
/-! The command byte (R54–R61): which bytes are legal, what a write of each kind of byte to `CMD` does,
what the results of each command depend on (R59), and the pseudo-instructions (R63). -/

namespace Sys2Proof.Machine

/-! ### The legal bytes are the encodings of the commands (R58) -/

theorem encodesLegally (i : Instr) : Laws.EncodesLegally.Statement i :=
  match i with
  | .nop => Laws.EncodesLegally.nop
  | .decode => Laws.EncodesLegally.decode
  | .dects => Laws.EncodesLegally.dects
  | .decrnd => Laws.EncodesLegally.decrnd
  | .b64 src => Laws.EncodesLegally.b64 src
  | .lookup => Laws.EncodesLegally.lookup
  | .alpha => Laws.EncodesLegally.alpha
  | .clr => Laws.EncodesLegally.clr

theorem wellFormed_of_instr (i : Instr) : i.wellFormed = true := by
  obtain ⟨hwf, -, -⟩ := encodesLegally i
  exact hwf

theorem legal_encode (i : Instr) : legal (encode i) = true := by
  obtain ⟨-, hlegal, -⟩ := encodesLegally i
  exact hlegal

theorem legal_iff_mem_legalBytes : ∀ v : Byte, legal v = true ↔ v ∈ Claims.legalBytes := by decide

/-- The commands with their sources, in the order of R55. -/
def allCommands : List Instr :=
  [.nop, .decode, .dects, .decrnd, .b64 .ibuf, .b64 .obuf, .lookup, .alpha, .clr]

theorem legalBytes_eq_encodings : Claims.legalBytes = allCommands.map encode := by decide

/-- A byte is legal exactly when the decoder finds a command in it. -/
theorem legal_iff_decodes (v : Byte) : legal v = true ↔ ∃ i, decode v = .ok i := by
  constructor
  · intro h
    rw [legal_iff_mem_legalBytes, legalBytes_eq_encodings] at h
    obtain ⟨i, -, rfl⟩ := List.mem_map.1 h
    exact ⟨i, decode_encode i⟩
  · rintro ⟨i, hi⟩
    exact encode_of_decode hi ▸ legal_encode i

theorem decode_error_of_illegal {v : Byte} (h : legal v = false) : ∃ why, decode v = .error why := by
  cases hd : decode v with
  | ok i => exact absurd ((legal_iff_decodes v).2 ⟨i, hd⟩) (by simp [h])
  | error why => exact ⟨why, rfl⟩

/-- An illegal byte is stored and sets `STATUS`, and changes nothing else (R60). -/
theorem runCommand_of_illegal {v : Byte} (h : legal v = false) (s : State) :
    runCommand v s = .next { s with cmd := v, status := 0x84 } := by
  obtain ⟨why, hd⟩ := decode_error_of_illegal h
  exact runCommand_illegal hd s

/-- A byte other than `NOP`'s changes more than `CMD` at reset: `CLR` does not leave its byte there, and
every other command sets `DONE`. -/
theorem runCommand_reset_changes {v : Byte} (hv : v ≠ 0x00) :
    runCommand v State.reset ≠ .next { State.reset with cmd := v } := by
  intro h
  by_cases hclr : v = 0x07
  · have hcmd : v = 0x00 := (cmd_of_runCommand h).trans (if_pos hclr)
    exact hv hcmd
  · have hdone := done_of_runCommand h hv hclr
    exact absurd (show State.reset.done = true from hdone) (by decide)

/-! ### The fields of a byte as numbers (R54) -/

theorem opField_toNat (v : Byte) : (opField v).toNat = v.toNat % 16 := by
  simp [opField, BitVec.extractLsb'_toNat]

theorem srcField_toNat (v : Byte) : (srcField v).toNat = v.toNat / 16 % 2 := by
  simp [srcField, BitVec.extractLsb'_toNat, Nat.shiftRight_eq_div_pow]

theorem rsvField_toNat (v : Byte) : (rsvField v).toNat = v.toNat / 32 := by
  have hv := v.isLt
  simp only [rsvField, BitVec.extractLsb'_toNat, Nat.shiftRight_eq_div_pow]
  omega

theorem srcField_eq_zero_iff : ∀ v : Byte, srcField v = 0 ↔ v.getLsbD 4 = false := by decide

/-- `legal(v)` by the three fields (R58). -/
theorem legal_iff_fields (v : Byte) : legal v = true ↔
    rsvField v = 0 ∧ (opField v).toNat ≤ 7 ∧ (srcField v = 0 ∨ opField v = 4) := by
  simp only [legal, Bool.and_eq_true, Bool.or_eq_true, beq_iff_eq, decide_eq_true_eq, and_assoc,
    srcField_eq_zero_iff]
  rfl

/-- The three grounds of R60. -/
theorem illegal_iff_grounds (v : Byte) : legal v = false ↔
    (8 ≤ v.toNat % 16 ∨ v.toNat / 32 ≠ 0 ∨ (v.toNat / 16 % 2 = 1 ∧ v.toNat % 16 ≠ 4)) := by
  rw [← Bool.not_eq_true, legal_iff_fields, ← BitVec.toNat_inj, ← BitVec.toNat_inj, ← BitVec.toNat_inj,
    opField_toNat, srcField_toNat, rsvField_toNat]
  simp only [BitVec.ofNat_eq_ofNat, BitVec.toNat_ofNat]
  omega

/-! ### What the decoders' results depend on (R59) -/

/-- Two states hold the same results of a decoder (R27, R28). -/
abbrev State.SameDecoded (t t' : State) : Prop :=
  t.obuf = t'.obuf ∧ t.olen = t'.olen ∧ t.status = t'.status

theorem decodeRnd_err_data {r : List Byte} {e : ErrorCode} (h : decodeRnd r = .err e) :
    e ≠ .illegalCommand := by
  obtain rfl | rfl := decodeRnd_err h <;> decide

theorem sameDecoded_setDecoded (s s' : State) (n : Byte) (b : List Byte) :
    (s.setDecoded n b).SameDecoded (s'.setDecoded n b) := ⟨rfl, rfl, rfl⟩

theorem sameDecoded_raise (s s' : State) {e : ErrorCode} (he : e ≠ .illegalCommand) :
    (s.raise e).SameDecoded (s'.raise e) := by
  refine ⟨?_, ?_, ?_⟩
  · rw [raise_data_obuf s e he, raise_data_obuf s' e he]
  · rw [raise_data_olen s e he, raise_data_olen s' e he]
  · rw [raise_status, raise_status]

theorem runDecoder_of_ok {n : Nat} {f : List Byte → Result (List Byte)} {s : State} {b : List Byte}
    (hn : s.ilen.toNat = n) (hb : f (s.input n) = .ok b) (olen : Byte) :
    runDecoder n f olen s = s.setDecoded olen b := by
  simp [runDecoder, hn, hb]

theorem runDecoder_of_err {n : Nat} {f : List Byte → Result (List Byte)} {s : State} {e : ErrorCode}
    (hn : s.ilen.toNat = n) (he : f (s.input n) = .err e) (olen : Byte) :
    runDecoder n f olen s = s.raise e := by
  simp [runDecoder, hn, he]

theorem runDecoder_of_length {n : Nat} {s : State} (hn : s.ilen.toNat ≠ n)
    (f : List Byte → Result (List Byte)) (olen : Byte) :
    runDecoder n f olen s = s.raise .invalidLength := by
  simp [runDecoder, hn]

/-- A decoder's results depend on `ILEN`, and once the length passes on the bytes in range. -/
theorem sameDecoded_runDecoder {n : Nat} {f : List Byte → Result (List Byte)} {s s' : State}
    (hf : ∀ u e, f u = .err e → e ≠ .illegalCommand) (hilen : s.ilen = s'.ilen)
    (hin : s.ilen.toNat = n → s.input n = s'.input n) (olen : Byte) :
    (runDecoder n f olen s).SameDecoded (runDecoder n f olen s') := by
  by_cases hn : s.ilen.toNat = n
  · have hn' : s'.ilen.toNat = n := hilen ▸ hn
    cases hres : f (s.input n) with
    | ok b =>
      rw [runDecoder_of_ok hn hres, runDecoder_of_ok hn' (hin hn ▸ hres)]
      exact sameDecoded_setDecoded s s' olen b
    | err e =>
      rw [runDecoder_of_err hn hres, runDecoder_of_err hn' (hin hn ▸ hres)]
      exact sameDecoded_raise s s' (hf _ e hres)
  · rw [runDecoder_of_length hn, runDecoder_of_length (hilen ▸ hn)]
    exact sameDecoded_raise s s' (by decide)

/-! ### What the other commands' results depend on (R59) -/

/-- `B64`'s results depend on whether it renders at all, and then on the bytes it renders. -/
theorem execB64_congr {src : Source} {s s' t t' : State}
    (hguard : src = .ibuf → s.ilen = s'.ilen) (hin : s.b64Input src = s'.b64Input src)
    (ht : execB64 src s = .next t) (ht' : execB64 src s' = .next t') :
    t.status = t'.status ∧
      (¬ (src = .ibuf ∧ Config.ibufSize < s.ilen.toNat) → t.tbuf = t'.tbuf ∧ t.tlen = t'.tlen) := by
  have hiff : (src = .ibuf ∧ Config.ibufSize < s.ilen.toNat) ↔
      (src = .ibuf ∧ Config.ibufSize < s'.ilen.toNat) :=
    and_congr_right fun hsrc => by rw [hguard hsrc]
  obtain ⟨hok, hx⟩ | ⟨hlong, hx⟩ := execB64_cases src s <;> cases hx.symm.trans ht <;>
    obtain ⟨hok', hx'⟩ | ⟨hlong', hx'⟩ := execB64_cases src s' <;> cases hx'.symm.trans ht'
  · rw [hin]
    exact ⟨rfl, fun _ => ⟨rfl, rfl⟩⟩
  · exact absurd (hiff.2 hlong') hok
  · exact absurd (hiff.1 hlong) hok'
  · exact ⟨rfl, absurd hlong⟩

/-- `ALPHA`'s results depend on `ARG`. -/
theorem execAlpha_congr {s s' t t' : State} (harg : s.arg = s'.arg) (ht : execAlpha s = .next t)
    (ht' : execAlpha s' = .next t') :
    t.status = t'.status ∧ (s.arg.toNat < 32 → t.res = t'.res) := by
  obtain ⟨hlt, hx⟩ | ⟨hge, hx⟩ := execAlpha_cases s <;> cases hx.symm.trans ht <;>
    obtain ⟨hlt', hx'⟩ | ⟨hge', hx'⟩ := execAlpha_cases s' <;> cases hx'.symm.trans ht'
  · exact ⟨rfl, fun _ => by rw [setRes_res, setRes_res, harg]⟩
  · exact absurd (harg ▸ hlt) (by omega)
  · exact absurd (harg ▸ hge) (by omega)
  · exact ⟨rfl, fun hlt => absurd hlt (by omega)⟩

/-! ### The pseudo-instructions (R63) -/

/-- The line of host assembly that runs a command (R63). -/
def commandLine : Instr → AsmLine
  | .nop => .nop
  | .decode => .decode
  | .dects => .dects
  | .decrnd => .decrnd
  | .b64 src => .b64 src
  | .lookup => .lookup
  | .alpha => .alpha
  | .clr => .clr

theorem expand_commandLine (i : Instr) :
    (commandLine i).expand = some [commandWrite (encode i)] := by
  cases i with
  | b64 src => cases src <;> rfl
  | _ => rfl

/-! ### The statements -/

/-- Settles O3: a legal byte decodes to a command whose encoding it is, and an illegal one raises. -/
theorem legalBytesAreNineAndRunTheirOperation : Obligations.LegalBytesAreNineAndRunTheirOperation := by
  intro v s
  refine ⟨legal_iff_mem_legalBytes v, fun h => ?_, fun h => ?_⟩
  · obtain ⟨i, hi⟩ := (legal_iff_decodes v).1 h
    exact ⟨i, hi, encode_of_decode hi, (perform_command v s).trans (runCommand_legal hi s)⟩
  · exact (perform_command v s).trans (runCommand_of_illegal h s)

/-- Settles O4: the grounds are the negated checks of R58, and the step runs the illegal byte. -/
theorem illegalByteSetsOnlyCommandAndStatus : Obligations.IllegalByteSetsOnlyCommandAndStatus :=
  ⟨illegal_iff_grounds, by decide +kernel,
    fun _ _ _ hp h => (step_command hp).trans (runCommand_of_illegal h _)⟩

/-- Settles O5: `NOP` only stores its byte, and any other byte changes more at reset. -/
theorem nopIsTheOnlyByteWithoutEffect : Obligations.NopIsTheOnlyByteWithoutEffect := by
  refine ⟨fun v => ⟨fun h => ?_, ?_⟩, by decide⟩
  · by_contra hv
    exact runCommand_reset_changes hv ((perform_command v _).symm.trans (h _))
  · rintro rfl s
    exact (perform_command 0x00 s).trans (runCommand_nop s)

/-- Settles O57, by what the results of each command depend on. -/
theorem unreadRegistersNeverMatter : Obligations.UnreadRegistersNeverMatter := by
  intro s s' t t'
  refine ⟨fun i n hi hilen hin ht ht' => ?_, fun hilen hin ht ht' => ?_, fun holen hin ht ht' => ?_,
    fun harg ht ht' => ?_, execAlpha_congr⟩
  · simp only [List.mem_cons, Prod.mk.injEq, List.not_mem_nil, or_false] at hi
    obtain ⟨rfl, rfl⟩ | ⟨rfl, rfl⟩ | ⟨rfl, rfl⟩ := hi <;> cases ht <;> cases ht'
    · exact sameDecoded_runDecoder (fun _ _ => decodeUlid_err) hilen hin 16
    · exact sameDecoded_runDecoder (fun _ _ => decodeTs_err) hilen hin 6
    · exact sameDecoded_runDecoder (fun _ _ => decodeRnd_err_data) hilen hin 10
  · have hread : s.b64Input .ibuf = s'.b64Input .ibuf := by
      rw [State.b64Input, State.b64Input, hin, hilen]
    obtain ⟨hstatus, htext⟩ := execB64_congr (fun _ => hilen) hread ht ht'
    exact ⟨hstatus, fun hle => htext fun hlong => absurd hlong.2 (Nat.not_lt.2 hle)⟩
  · have hread : s.b64Input .obuf = s'.b64Input .obuf := by
      rw [State.b64Input, State.b64Input, hin, holen]
    obtain ⟨hstatus, htext⟩ := execB64_congr (fun h => by cases h) hread ht ht'
    obtain ⟨htbuf, htlen⟩ := htext (by simp)
    exact ⟨htbuf, htlen, hstatus⟩
  · cases ht
    cases ht'
    exact ⟨congrArg lut harg, rfl⟩

/-- Settles O1: the written bytes are the encodings of the commands, and each refused byte fails one
check. -/
theorem decoderReadsWrittenCommandBytes : Obligations.DecoderReadsWrittenCommandBytes :=
  ⟨decode_encode .nop, decode_encode .decode, decode_encode .dects, decode_encode .decrnd,
    decode_encode (.b64 .ibuf), decode_encode (.b64 .obuf), decode_encode .lookup,
    decode_encode .alpha, decode_encode .clr, by decide, by decide, by decide⟩

/-- Settles O2, by the two directions of the round trip. -/
theorem decodeAndEncodeAgree : Obligations.DecodeAndEncodeAgree :=
  ⟨fun i => ⟨wellFormed_of_instr i, decode_encode i⟩, fun _ _ => encode_of_decode⟩

/-- Settles O18: each listed line is the line of its command, which expands to the write of the
command's encoding. -/
theorem pseudoInstructionsWriteTheirCommand : Obligations.PseudoInstructionsWriteTheirCommand := by
  refine ⟨fun line i h => ?_, fun _ => rfl, fun _ => ⟨rfl, rfl⟩⟩
  have hmem : (line, i) ∈ allCommands.map fun j => (commandLine j, j) := h
  obtain ⟨j, -, hj⟩ := List.mem_map.1 hmem
  obtain ⟨rfl, rfl⟩ := Prod.mk.inj hj
  exact ⟨encode j, expand_commandLine j, decode_encode j⟩

end Sys2Proof.Machine
end

section
/-! The tables (R64–R73): the alphabet and its membership predicate, the LUT as the alphabet's inverse
that takes lowercase letters too, and the two commands that read the ROMs. -/

namespace Sys2Proof.Machine

/-! ### The alphabet (R64, R65) -/

theorem alphabet_eq_alphabetText : alphabet = Claims.alphabetText := by decide

theorem alphabetAt_eq_getElem (i : Fin 32) : alphabetAt i.val = alphabet[i.val]'i.isLt :=
  (List.getElem_eq_getD _).symm

theorem mem_alphabet_iff (b : Byte) : b ∈ alphabet ↔ ∃ i : Fin 32, b = alphabetAt i.val := by
  constructor
  · intro h
    obtain ⟨i, hi, rfl⟩ := List.getElem_of_mem h
    exact ⟨⟨i, hi⟩, (alphabetAt_eq_getElem ⟨i, hi⟩).symm⟩
  · rintro ⟨i, rfl⟩
    exact alphabetAt_eq_getElem i ▸ List.getElem_mem _

/-- A byte is canonical exactly when it is an entry of the alphabet: that of its symbol. -/
theorem isCanon_iff_alphabetAt (b : Byte) :
    isCanon b = true ↔ ∃ i : Fin 32, b = alphabetAt i.val := by
  constructor
  · intro h
    obtain ⟨hlt, hat⟩ := isCanon_sym h
    exact ⟨⟨sym b, hlt⟩, hat.symm⟩
  · rintro ⟨i, rfl⟩
    obtain ⟨hcanon, -⟩ := alphabetAt_canon i.isLt
    exact hcanon

/-- `'Z'` is the alphabet's largest code. -/
theorem alphabetAt_toNat_le : ∀ i : Fin 32, (alphabetAt i.val).toNat ≤ 0x5A := by decide

theorem isCanon_eq_false_of_lt {b : Byte} (h : 0x5A < b.toNat) : isCanon b = false := by
  rw [← Bool.not_eq_true, isCanon_iff_alphabetAt]
  rintro ⟨i, rfl⟩
  exact absurd (alphabetAt_toNat_le i) (Nat.not_le.2 h)

/-- The first eight entries of the alphabet are `'0'`..`'7'`. -/
theorem alphabetAt_low_iff : ∀ i : Fin 32,
    i.val ≤ 7 ↔ 0x30 ≤ (alphabetAt i.val).toNat ∧ (alphabetAt i.val).toNat ≤ 0x37 := by decide

/-- From index 10 up the alphabet holds letters. -/
theorem alphabetAt_letter : ∀ i : Fin 32, 10 ≤ i.val →
    0x41 ≤ (alphabetAt i.val).toNat ∧ (alphabetAt i.val).toNat ≤ 0x5A := by decide

/-! ### The LUT (R66–R71) -/

theorem lut_alphabetAt_toNat (i : Fin 32) : (lut (alphabetAt i.val)).toNat = i.val := by
  obtain ⟨-, hsym⟩ := alphabetAt_canon i.isLt
  exact hsym

theorem lut_alphabetAt (i : Fin 32) : lut (alphabetAt i.val) = BitVec.ofNat 8 i.val := by
  apply BitVec.eq_of_toNat_eq
  rw [lut_alphabetAt_toNat, BitVec.toNat_ofNat, Nat.mod_eq_of_lt (by omega)]

/-- The LUT inverts the alphabet, so no character stands in it twice. -/
theorem alphabetAt_injective {i j : Fin 32} (h : alphabetAt i.val = alphabetAt j.val) : i = j :=
  Fin.ext (by rw [← lut_alphabetAt_toNat i, h, lut_alphabetAt_toNat j])

/-- Rows 6 and 7 of the grid are rows 4 and 5 again (R70): case does not matter to the LUT. -/
theorem lut_add_0x20 {b : Byte} (h : 0x40 ≤ b.toNat ∧ b.toNat < 0x60) :
    lut (b + 0x20) = lut b := by
  have hnat : (b + 0x20).toNat = b.toNat + 2 * 16 := by
    rw [BitVec.toNat_add, Nat.mod_eq_of_lt (by simp; omega)]
    rfl
  have hrow : b.toNat / 16 = 4 ∨ b.toNat / 16 = 5 := by omega
  rw [lut, lut, hnat, Nat.add_mul_div_right _ _ (by decide), Nat.add_mul_mod_self_right]
  obtain hrow | hrow := hrow <;> rw [hrow] <;> rfl

/-- A lowercase letter's code, without wrapping. -/
theorem lowercase_toNat {i : Fin 32} (hi : 10 ≤ i.val) :
    (alphabetAt i.val + 0x20).toNat = (alphabetAt i.val).toNat + 0x20 := by
  obtain ⟨-, hle⟩ := alphabetAt_letter i hi
  rw [BitVec.toNat_add, Nat.mod_eq_of_lt (by simp; omega)]
  rfl

theorem lut_lowercase {i : Fin 32} (hi : 10 ≤ i.val) :
    lut (alphabetAt i.val + 0x20) = lut (alphabetAt i.val) := by
  obtain ⟨hge, hle⟩ := alphabetAt_letter i hi
  exact lut_add_0x20 (by omega)

theorem isCanon_lowercase {i : Fin 32} (hi : 10 ≤ i.val) :
    isCanon (alphabetAt i.val + 0x20) = false := by
  obtain ⟨hge, -⟩ := alphabetAt_letter i hi
  exact isCanon_eq_false_of_lt (by rw [lowercase_toNat hi]; omega)

/-- What the LUT can give: the sentinel, or the symbol of a canonical character or of a
lowercase letter. -/
theorem lut_cases (b : Byte) :
    lut b = 0xFF ∨ isCanon b = true ∨
      ∃ i : Fin 32, 10 ≤ i.val ∧ b = alphabetAt i.val + 0x20 := by
  revert b
  decide +kernel

/-- The bytes with a symbol that are not canonical are the lowercase letters (R71 (d)). -/
theorem lut_lt_and_not_isCanon_iff (b : Byte) : ((lut b).toNat < 32 ∧ isCanon b = false) ↔
    ∃ i : Fin 32, 10 ≤ i.val ∧ b = alphabetAt i.val + 0x20 := by
  constructor
  · rintro ⟨hlt, hcanon⟩
    obtain hsentinel | h | h := lut_cases b
    · exact absurd (hsentinel ▸ hlt) (by decide)
    · exact absurd (hcanon.symm.trans h) (by decide)
    · exact h
  · rintro ⟨i, hi, rfl⟩
    refine ⟨?_, isCanon_lowercase hi⟩
    rw [lut_lowercase hi, lut_alphabetAt_toNat]
    exact i.isLt

/-- A canonical character's symbol is at most 7 exactly for `'0'`..`'7'` (R71 (e)). -/
theorem lut_le_seven_iff {b : Byte} (h : isCanon b = true) :
    (lut b).toNat ≤ 7 ↔ 0x30 ≤ b.toNat ∧ b.toNat ≤ 0x37 := by
  obtain ⟨i, rfl⟩ := (isCanon_iff_alphabetAt b).1 h
  rw [lut_alphabetAt_toNat]
  exact alphabetAt_low_iff i

/-! ### The commands that read the ROMs (R72, R73) -/

theorem exec_lookup (s : State) : exec .lookup s = .next (s.setRes (lut s.arg)) := rfl

theorem exec_alpha_of_lt {s : State} (h : s.arg.toNat < 32) :
    exec .alpha s = .next (s.setRes (alphabetAt s.arg.toNat)) := by
  obtain ⟨-, hx⟩ | ⟨hge, -⟩ := execAlpha_cases s
  · exact hx
  · exact absurd h (Nat.not_lt.2 hge)

theorem exec_alpha_of_ge {s : State} (h : 32 ≤ s.arg.toNat) :
    exec .alpha s = .next (s.raise .illegalCommand) := by
  obtain ⟨hlt, -⟩ | ⟨-, hx⟩ := execAlpha_cases s
  · exact absurd hlt (Nat.not_lt.2 h)
  · exact hx

/-! ### The statements -/

/-- Settles O23: the table is the string's codes, and the LUT inverts it. -/
theorem alphabetIsTheCanonicalString : Obligations.AlphabetIsTheCanonicalString :=
  ⟨alphabet_eq_alphabetText, rfl, lut_alphabetAt_toNat⟩

/-- Settles O24: the canonical bytes are the alphabet's entries, none of which is above `'Z'`. -/
theorem canonicalBytesAreTheAlphabet : Obligations.CanonicalBytesAreTheAlphabet := by
  refine ⟨fun b => ?_, fun b hb => isCanon_eq_false_of_lt (by omega), by decide,
    fun b hb => isCanon_eq_false_of_lt (by omega)⟩
  rw [isCanon_iff_alphabetAt, ← mem_alphabet_iff, alphabet_eq_alphabetText]

/-- Settles O25: a byte that is neither canonical nor a lowercase letter has the sentinel. -/
theorem lookupTableFollowsTheAlphabet : Obligations.LookupTableFollowsTheAlphabet := by
  refine ⟨lut_alphabetAt, fun i hi => (lut_lowercase hi).trans (lut_alphabetAt i), fun b hb => ?_,
    by decide +kernel⟩
  obtain h | hcanon | ⟨i, hi, rfl⟩ := lut_cases b
  · exact h
  · obtain ⟨i, rfl⟩ := (isCanon_iff_alphabetAt b).1 hcanon
    exact absurd rfl (hb i).1
  · exact absurd rfl ((hb i).2 hi)

/-- Settles O26: the LUT and the alphabet are inverse on the canonical bytes, and what else has a symbol
is a lowercase letter. -/
theorem tableLawsHold : Obligations.TableLawsHold :=
  ⟨fun _ h => (isCanon_sym h).1, fun _ h => (isCanon_sym h).2, fun _ _ => alphabetAt_injective,
    fun i => (alphabetAt_canon i.isLt).1, lut_lt_and_not_isCanon_iff, fun _ => lut_le_seven_iff⟩

/-- Settles O27: `LOOKUP` stores the entry of `ARG`, whatever it is. -/
theorem lookupReturnsTheTableEntry : Obligations.LookupReturnsTheTableEntry := exec_lookup

/-- Settles O28, by the two sides of `ARG` = 32. -/
theorem alphaReturnsTheCharacter : Obligations.AlphaReturnsTheCharacter :=
  fun s => ⟨fun h => ⟨alphabetAt s.arg.toNat, alphabetText_getElem? ⟨s.arg.toNat, h⟩,
    exec_alpha_of_lt h⟩, exec_alpha_of_ge⟩

end Sys2Proof.Machine
end

section
/-! The packing of symbols and bytes as numbers (R74): the digits and bits of `val`, the bytes of `be`, the
text that writes a number, and the order of equally long lists. -/

namespace Sys2Proof.Machine

/-! ### The digits and bits of `val` -/

/-- Dropping the digits above the one at 32^e leaves that digit as it is. -/
theorem mul_pow_add_div_mod {e n : Nat} (x v : Nat) (h : e < n) :
    (x * 32 ^ n + v) / 32 ^ e % 32 = v / 32 ^ e % 32 := by
  obtain ⟨d, rfl⟩ := Nat.exists_eq_add_of_lt h
  have hsplit : x * 32 ^ (e + d + 1) + v = v + 32 ^ e * (x * 32 ^ d * 32) := by ring
  rw [hsplit, Nat.add_mul_div_left _ _ (by positivity), Nat.add_mul_mod_self_right]

/-- Symbol i of n occupies the five bits of V from 5·(n−1−i) up (R77, R78). -/
theorem symVal_digit {s : List Nat} (h : ∀ x ∈ s, x < 32) {i : Nat} (hi : i < s.length) :
    symVal s / 32 ^ (s.length - 1 - i) % 32 = s.getD i 0 := by
  induction s generalizing i with
  | nil => exact absurd hi (Nat.not_lt_zero i)
  | cons x s ih =>
    have hs : ∀ y ∈ s, y < 32 := fun y hy => h y (List.mem_cons_of_mem x hy)
    have hx : x < 32 := h x List.mem_cons_self
    rw [symVal_cons, List.length_cons]
    cases i with
    | zero =>
      rw [Nat.add_sub_cancel, Nat.sub_zero, mul_comm, Nat.mul_add_div (by positivity),
        Nat.div_eq_of_lt (symVal_lt s hs), Nat.add_zero, Nat.mod_eq_of_lt hx, List.getD_cons_zero]
    | succ i =>
      have hi' : i < s.length := Nat.lt_of_succ_lt_succ hi
      rw [mul_pow_add_div_mod x _ (by omega), List.getD_cons_succ, ← ih hs hi']
      congr 3
      omega

/-- The n symbols are the digits of a number of 5·n bits (R77, R78). -/
theorem symVal_digits {s : List Nat} {n : Nat} (hlen : s.length = n) (h : ∀ x ∈ s, x < 32) :
    symVal s < 2 ^ (5 * n) ∧
      ∀ i : Fin n, symVal s / 2 ^ (5 * (n - 1) - 5 * i.val) % 32 = s.getD i.val 0 := by
  subst hlen
  refine ⟨by rw [pow_mul]; exact symVal_lt s h, fun i => ?_⟩
  rw [← Nat.mul_sub, pow_mul]
  exact symVal_digit h i.isLt

/-- Bit j of V is bit j mod 5 of the symbol that occupies it (R77, R78). -/
theorem symVal_testBit {s : List Nat} (h : ∀ x ∈ s, x < 32) {j : Nat} (hj : j < 5 * s.length) :
    (symVal s).testBit j = (s.getD (s.length - 1 - j / 5) 0).testBit (j % 5) := by
  rw [← symVal_digit h (show s.length - 1 - j / 5 < s.length by omega),
    show s.length - 1 - (s.length - 1 - j / 5) = j / 5 by omega, show 32 = 2 ^ 5 from rfl, ← pow_mul,
    Nat.testBit_mod_two_pow, Nat.testBit_div_two_pow]
  simp [Nat.mod_lt, Nat.mod_add_div]

/-- With a first symbol of at most 7 the two top bits of V are 0 (R77, R80). -/
theorem symVal_lt_of_low {s : List Nat} (h : ∀ x ∈ s, x < 32) (hlow : s.getD 0 0 ≤ 7) :
    symVal s < 8 * 32 ^ (s.length - 1) := by
  cases s with
  | nil => simp [symVal]
  | cons x s =>
    have hs := symVal_lt s fun y hy => h y (List.mem_cons_of_mem x hy)
    rw [List.getD_cons_zero] at hlow
    rw [symVal_cons, List.length_cons, Nat.add_sub_cancel]
    calc x * 32 ^ s.length + symVal s < x * 32 ^ s.length + 32 ^ s.length := by omega
      _ = (x + 1) * 32 ^ s.length := by ring
      _ ≤ 8 * 32 ^ s.length := Nat.mul_le_mul_right _ (by omega)

/-- A number determines the symbols that write it. -/
theorem symVal_injective {s t : List Nat} (hs : ∀ x ∈ s, x < 32) (ht : ∀ x ∈ t, x < 32)
    (hlen : s.length = t.length) (h : symVal s = symVal t) : s = t := by
  refine List.ext_getElem hlen fun i hi hi' => ?_
  have hdigit := symVal_digit hs hi
  rw [h, hlen, symVal_digit ht hi', List.getD_eq_getElem _ _ hi, List.getD_eq_getElem _ _ hi'] at hdigit
  exact hdigit.symm

/-! ### The bytes of `be` -/

/-- Byte k of n is bits 8·(n−1−k)+7..8·(n−1−k) of the number (R74). -/
theorem bigEndian_getD (v : Nat) {n k : Nat} (hk : k < n) :
    (bigEndian n v).getD k 0 = BitVec.ofNat 8 (v / 256 ^ (n - 1 - k)) := by
  simp [bigEndian, List.getD_eq_getElem?_getD, hk]

theorem bigEndian_append (m n v : Nat) :
    bigEndian (m + n) v = bigEndian m (v / 256 ^ n) ++ bigEndian n v := by
  induction m with
  | zero => simp [bigEndian]
  | succ m ih =>
    rw [Nat.add_right_comm, bigEndian_succ, bigEndian_succ, ih, Nat.div_div_eq_div_mul, ← pow_add,
      Nat.add_comm n m, List.cons_append]

/-- The bytes emitted do not see what stands above them. -/
theorem bigEndian_add_mul (n a v : Nat) : bigEndian n (a * 256 ^ n + v) = bigEndian n v := by
  apply List.map_congr_left
  intro k hk
  obtain ⟨d, hd⟩ := Nat.exists_eq_add_of_lt (List.mem_range.1 hk)
  have hsplit : a * 256 ^ n + v = v + 256 ^ (n - 1 - k) * (256 * (a * 256 ^ k)) := by
    rw [show n = (n - 1 - k) + 1 + k by omega]
    simp only [show n - 1 - k + 1 + k - 1 - k = n - 1 - k by omega]
    ring
  apply BitVec.eq_of_toNat_eq
  rw [hsplit, Nat.add_mul_div_left _ _ (by positivity), BitVec.toNat_ofNat, BitVec.toNat_ofNat]
  exact Nat.add_mul_mod_self_left _ _ _

/-- Two numbers side by side are emitted one after the other. -/
theorem bigEndian_mul_add (m n a : Nat) {v : Nat} (hv : v < 256 ^ n) :
    bigEndian (m + n) (a * 256 ^ n + v) = bigEndian m a ++ bigEndian n v := by
  rw [bigEndian_append, bigEndian_add_mul, mul_comm, Nat.mul_add_div (by positivity),
    Nat.div_eq_of_lt hv, Nat.add_zero]

/-- `be` of the number that bytes write gives the bytes back. -/
theorem bigEndian_bytesValue (b : List Byte) : bigEndian b.length (bytesValue b) = b := by
  induction b with
  | nil => rfl
  | cons x b ih =>
    rw [List.length_cons, Nat.add_comm, bytesValue_cons, bigEndian_mul_add 1 _ _ (bytesValue_lt b), ih]
    simp [bigEndian]

/-! ### The text that writes a number -/

/-- The n canonical characters whose symbols write a number of 5·n bits: what the decoders invert. -/
def textOf : Nat → Nat → List Byte
  | 0, _ => []
  | n + 1, v => alphabetAt (v / 32 ^ n % 32) :: textOf n v

theorem textOf_length (n v : Nat) : (textOf n v).length = n := by
  induction n with
  | zero => rfl
  | succ n ih => rw [textOf, List.length_cons, ih]

theorem textOf_canonical (n v : Nat) : Claims.Canonical (textOf n v) := by
  induction n with
  | zero => exact List.forall_mem_nil _
  | succ n ih =>
    obtain ⟨hcanon, -⟩ := alphabetAt_canon (Nat.mod_lt (v / 32 ^ n) (by decide))
    exact List.forall_mem_cons.2 ⟨hcanon, ih⟩

theorem textOf_symVal (n v : Nat) : symVal ((textOf n v).map sym) = v % 32 ^ n := by
  induction n with
  | zero => simp [textOf, symVal, Nat.mod_one]
  | succ n ih =>
    obtain ⟨-, hsym⟩ := alphabetAt_canon (Nat.mod_lt (v / 32 ^ n) (by decide))
    rw [textOf, List.map_cons, hsym, symVal_cons, ih, List.length_map, textOf_length, pow_succ,
      Nat.mod_mul (x := v) (a := 32 ^ n) (b := 32), mul_comm, add_comm]

/-- The first symbol of the text of a number whose two top bits are 0 passes the overflow check. -/
theorem textOf_low {n v : Nat} (hv : v < 8 * 32 ^ n) :
    ((textOf (n + 1) v).map sym).getD 0 0 ≤ 7 := by
  obtain ⟨-, hsym⟩ := alphabetAt_canon (Nat.mod_lt (v / 32 ^ n) (show 0 < 32 by decide))
  have hdiv : v / 32 ^ n < 8 := Nat.div_lt_of_lt_mul (mul_comm 8 _ ▸ hv)
  rw [textOf, List.map_cons, List.getD_cons_zero, hsym]
  exact (Nat.mod_le _ _).trans (Nat.le_of_lt_succ hdiv)

/-! ### The symbols of canonical characters -/

theorem sym_lt_of_canonical {u : List Byte} (h : Claims.Canonical u) : ∀ x ∈ u.map sym, x < 32 := by
  simp only [List.mem_map, forall_exists_index, and_imp, forall_apply_eq_imp_iff₂]
  exact fun c hc => (isCanon_sym (h c hc)).1

/-- The characters are the alphabet's entries at their symbols (R71 (b)). -/
theorem map_alphabetAt_sym {u : List Byte} (h : Claims.Canonical u) :
    (u.map sym).map alphabetAt = u := by
  rw [List.map_map]
  exact (List.map_congr_left fun c hc => (isCanon_sym (h c hc)).2).trans (List.map_id u)

/-- A number determines the canonical characters that write it. -/
theorem eq_of_symVal_eq {u u' : List Byte} (h : Claims.Canonical u) (h' : Claims.Canonical u')
    (hlen : u.length = u'.length) (hval : symVal (u.map sym) = symVal (u'.map sym)) : u = u' := by
  have hsyms : u.map sym = u'.map sym :=
    symVal_injective (sym_lt_of_canonical h) (sym_lt_of_canonical h') (by simpa using hlen) hval
  rw [← map_alphabetAt_sym h, hsyms, map_alphabetAt_sym h']

/-! ### The order of equally long lists (R85 (f)) -/

/-- Of two numbers the leading digits decide, and when these agree the rest. -/
theorem lead_lt_iff {x y p a b : Nat} (ha : a < p) (hb : b < p) :
    x * p + a < y * p + b ↔ x < y ∨ x = y ∧ a < b := by
  obtain hlt | rfl | hgt := Nat.lt_trichotomy x y
  · have hle : (x + 1) * p ≤ y * p := Nat.mul_le_mul_right p hlt
    rw [Nat.add_one_mul] at hle
    exact iff_of_true (by omega) (.inl hlt)
  · simp
  · have hle : (y + 1) * p ≤ x * p := Nat.mul_le_mul_right p hgt
    rw [Nat.add_one_mul] at hle
    exact iff_of_false (by omega) (by omega)

theorem lt_iff_bytesValue_lt {b b' : List Byte} (hlen : b.length = b'.length) :
    b < b' ↔ bytesValue b < bytesValue b' := by
  induction b generalizing b' with
  | nil =>
    obtain rfl := List.eq_nil_of_length_eq_zero hlen.symm
    simp
  | cons x b ih =>
    cases b' with
    | nil => cases hlen
    | cons y b' =>
      have htail : b.length = b'.length := Nat.succ.inj hlen
      have hb' := bytesValue_lt b'
      rw [← htail] at hb'
      rw [List.cons_lt_cons_iff, ih htail, bytesValue_cons, bytesValue_cons, ← htail,
        lead_lt_iff (bytesValue_lt b) hb', BitVec.lt_def, BitVec.toNat_inj]

/-- The alphabet is in rising order. -/
theorem alphabetAt_lt_iff : ∀ i j : Fin 32, alphabetAt i.val < alphabetAt j.val ↔ i < j := by decide

/-- Canonical characters are ordered as their symbols, and have different symbols when they differ. -/
theorem lt_iff_sym_lt {c d : Byte} (hc : isCanon c = true) (hd : isCanon d = true) :
    (c < d ↔ sym c < sym d) ∧ (c = d ↔ sym c = sym d) := by
  obtain ⟨i, rfl⟩ := (isCanon_iff_alphabetAt c).1 hc
  obtain ⟨j, rfl⟩ := (isCanon_iff_alphabetAt d).1 hd
  obtain ⟨-, hi⟩ := alphabetAt_canon i.isLt
  obtain ⟨-, hj⟩ := alphabetAt_canon j.isLt
  rw [hi, hj]
  exact ⟨alphabetAt_lt_iff i j, fun h => congrArg Fin.val (alphabetAt_injective h),
    fun h => congrArg alphabetAt h⟩

theorem lt_iff_symVal_lt {u u' : List Byte} (h : Claims.Canonical u) (h' : Claims.Canonical u')
    (hlen : u.length = u'.length) : u < u' ↔ symVal (u.map sym) < symVal (u'.map sym) := by
  induction u generalizing u' with
  | nil =>
    obtain rfl := List.eq_nil_of_length_eq_zero hlen.symm
    simp
  | cons c u ih =>
    cases u' with
    | nil => cases hlen
    | cons d u' =>
      obtain ⟨hc, hu⟩ := List.forall_mem_cons.1 h
      obtain ⟨hd, hu'⟩ := List.forall_mem_cons.1 h'
      have htail : u.length = u'.length := Nat.succ.inj hlen
      have hlt := symVal_lt _ (sym_lt_of_canonical hu)
      have hlt' := symVal_lt _ (sym_lt_of_canonical hu')
      rw [List.length_map] at hlt hlt'
      rw [← htail] at hlt'
      obtain ⟨hhead, heq⟩ := lt_iff_sym_lt hc hd
      rw [List.cons_lt_cons_iff, ih hu hu' htail, hhead, heq, List.map_cons, List.map_cons, symVal_cons,
        symVal_cons, List.length_map, List.length_map, ← htail, lead_lt_iff hlt hlt']

end Sys2Proof.Machine
end

section
/-! The byte equations (R79): eight symbols are forty bits, five bytes. -/

namespace Sys2Proof.Machine

open Claims

/-- An OR of parts that do not overlap is a sum. -/
theorem shiftLeft_or_eq {x y i : Nat} (hy : y < 2 ^ i) : x <<< i ||| y = x * 2 ^ i + y := by
  rw [← Nat.shiftLeft_add_eq_or_of_lt hy, Nat.shiftLeft_eq]

theorem shiftLeft_or_shiftRight {x y i j : Nat} (hy : y / 2 ^ j < 2 ^ i) :
    x <<< i ||| y >>> j = x * 2 ^ i + y / 2 ^ j := by
  rw [Nat.shiftRight_eq_div_pow, shiftLeft_or_eq hy]

theorem three_parts_or_eq {x y z i j k : Nat} (hz : z / 2 ^ k < 2 ^ j)
    (hyz : y * 2 ^ j + z / 2 ^ k < 2 ^ i) :
    x <<< i ||| y <<< j ||| z >>> k = x * 2 ^ i + (y * 2 ^ j + z / 2 ^ k) := by
  rw [Nat.or_assoc, shiftLeft_or_shiftRight hz, shiftLeft_or_eq hyz]

theorem trunc8_eq_of_mod {v w : Nat} (h : v % 256 = w % 256) : trunc8 v = trunc8 w :=
  BitVec.eq_of_toNat_eq (by rw [BitVec.toNat_ofNat, BitVec.toNat_ofNat]; exact h)

/-- Eight symbols are five bytes; each takes bits of two or three symbols (R79). -/
theorem bigEndian_eight {a b c d e f g h : Nat} (hb : b < 32) (hc : c < 32) (hd : d < 32)
    (he : e < 32) (hf : f < 32) (hg : g < 32) (hh : h < 32) :
    bigEndian 5 (symVal [a, b, c, d, e, f, g, h]) =
      [ trunc8 (a <<< 3 ||| b >>> 2), trunc8 (b <<< 6 ||| c <<< 1 ||| d >>> 4),
        trunc8 (d <<< 4 ||| e >>> 1), trunc8 (e <<< 7 ||| f <<< 2 ||| g >>> 3),
        trunc8 (g <<< 5 ||| h) ] := by
  rw [shiftLeft_or_shiftRight (by omega), three_parts_or_eq (by omega) (by omega),
    shiftLeft_or_shiftRight (by omega), three_parts_or_eq (by omega) (by omega),
    shiftLeft_or_eq (by omega)]
  simp only [bigEndian, List.range_succ, List.range_zero, List.nil_append, List.cons_append,
    List.map_cons, List.map_nil, symVal, List.foldl_cons, List.foldl_nil,
    List.cons.injEq, and_true]
  refine ⟨trunc8_eq_of_mod ?_, trunc8_eq_of_mod ?_, trunc8_eq_of_mod ?_, trunc8_eq_of_mod ?_,
    trunc8_eq_of_mod ?_⟩ <;> omega

theorem take_succ_drop {s : List Nat} {k : Nat} (hk : k < s.length) (n : Nat) :
    (s.drop k).take (n + 1) = s.getD k 0 :: (s.drop (k + 1)).take n := by
  rw [List.drop_eq_getElem_cons hk, List.take_succ_cons, List.getD_eq_getElem _ _ hk]

theorem getD_lt {s : List Nat} (h : ∀ x ∈ s, x < 32) (i : Nat) : s.getD i 0 < 32 := by
  by_cases hi : i < s.length
  · rw [List.getD_eq_getElem _ _ hi]
    exact h _ (List.getElem_mem hi)
  · rw [List.getD_eq_default _ _ (Nat.not_lt.1 hi)]
    decide

/-- The five byte equations on the eight symbols from index k up (R79). -/
def groupBytes (s : List Nat) (k : Nat) : List Byte :=
  [ trunc8 ((s.getD k 0 <<< 3) ||| (s.getD (k + 1) 0 >>> 2)),
    trunc8 ((s.getD (k + 1) 0 <<< 6) ||| (s.getD (k + 2) 0 <<< 1) ||| (s.getD (k + 3) 0 >>> 4)),
    trunc8 ((s.getD (k + 3) 0 <<< 4) ||| (s.getD (k + 4) 0 >>> 1)),
    trunc8 ((s.getD (k + 4) 0 <<< 7) ||| (s.getD (k + 5) 0 <<< 2) ||| (s.getD (k + 6) 0 >>> 3)),
    trunc8 ((s.getD (k + 6) 0 <<< 5) ||| s.getD (k + 7) 0) ]

theorem bigEndian_slice {s : List Nat} (h : ∀ x ∈ s, x < 32) {k : Nat} (hk : k + 8 ≤ s.length) :
    bigEndian 5 (symVal ((s.drop k).take 8)) = groupBytes s k := by
  have hslice : (s.drop k).take 8 = [s.getD k 0, s.getD (k + 1) 0, s.getD (k + 2) 0, s.getD (k + 3) 0,
      s.getD (k + 4) 0, s.getD (k + 5) 0, s.getD (k + 6) 0, s.getD (k + 7) 0] := by
    iterate 8 rw [take_succ_drop (by omega)]
    rfl
  rw [hslice]
  exact bigEndian_eight (getD_lt h _) (getD_lt h _) (getD_lt h _) (getD_lt h _) (getD_lt h _)
    (getD_lt h _) (getD_lt h _)

/-- What eight further symbols add to the bytes. -/
theorem bigEndian_append_eight (n : Nat) {s t : List Nat} (ht : ∀ x ∈ t, x < 32) (hlen : t.length = 8) :
    bigEndian (n + 5) (symVal (s ++ t)) = bigEndian n (symVal s) ++ bigEndian 5 (symVal t) := by
  have hlt := symVal_lt t ht
  rw [hlen] at hlt
  rw [symVal_append, hlen]
  exact bigEndian_mul_add n 5 _ hlt

/-- `T0` is the first two symbols, cut to a byte (R79). -/
theorem bigEndian_two {x y : Nat} (hy : y < 32) :
    bigEndian 1 (symVal [x, y]) = [trunc8 (x <<< 5 ||| y)] := by
  rw [shiftLeft_or_eq hy]
  simp [bigEndian, symVal]

/-- Settles O32: the last eight of ten symbols, and each half of sixteen, are a group of five bytes. -/
theorem byteEquationsOfTheDatapath : Obligations.ByteEquationsOfTheDatapath := by
  refine ⟨fun s hlen h _ => ?_, fun r hlen h g => ?_⟩
  · have hlast : (s.drop 2).length = 8 := by rw [List.length_drop, hlen]
    have hfirst : s.take 2 = [s.getD 0 0, s.getD 1 0] :=
      (take_succ_drop (k := 0) (by omega) 1).trans (congrArg _ (take_succ_drop (by omega) 0))
    have hsplit := bigEndian_append_eight 1 (s := s.take 2)
      (fun x hx => h x (List.mem_of_mem_drop hx)) hlast
    rw [List.take_append_drop, ← List.take_of_length_le hlast.le, bigEndian_slice h hlen.ge, hfirst,
      bigEndian_two (getD_lt h 1)] at hsplit
    exact hsplit
  · have hlast : (r.drop 8).length = 8 := by rw [List.length_drop, hlen]
    have hsplit := bigEndian_append_eight 5 (s := r.take 8)
      (fun x hx => h x (List.mem_of_mem_drop hx)) hlast
    have hlo := bigEndian_slice h (k := 0) (by omega)
    have hhi := bigEndian_slice h (k := 8) (by omega)
    rw [List.drop_zero] at hlo
    rw [List.take_of_length_le hlast.le] at hhi
    rw [List.take_append_drop, hlo, hhi] at hsplit
    rw [hsplit]
    fin_cases g <;> rfl

end Sys2Proof.Machine
end

section
/-! The three decoders (R75–R81, R85): which strings they accept and with which error they refuse the
others, and a decoded string as the number that its symbols write. -/

namespace Sys2Proof.Machine

open Claims

/-! ### The overflow check (R76) -/

theorem tsOverflow_iff (x : Nat) : tsOverflow x = true ↔ 7 < x := by
  simp [tsOverflow]

/-- `'8'`, `'9'` and the letters stand at index 8 and above. -/
theorem seven_lt_iff_alphabetAt : ∀ i : Fin 32, 7 < i.val ↔
    alphabetAt i.val = 0x38 ∨ alphabetAt i.val = 0x39 ∨ 0x41 ≤ (alphabetAt i.val).toNat := by decide

/-- The first symbol of a canonical string passes the check exactly for `'0'`..`'7'` (R85 (b)). -/
theorem first_le_seven_iff {u : List Byte} (h : Canonical u) (hne : 0 < u.length) :
    (u.map sym).getD 0 0 ≤ 7 ↔ StartsLow u := by
  cases u with
  | nil => exact absurd hne (by simp)
  | cons c u => exact lut_le_seven_iff (h c List.mem_cons_self)

theorem canonical_take {u : List Byte} (h : Canonical u) (n : Nat) : Canonical (u.take n) :=
  fun c hc => h c (List.mem_of_mem_take hc)

theorem startsLow_take (u : List Byte) : StartsLow (u.take 10) ↔ StartsLow u := by
  cases u <;> rfl

/-! ### The refusals, in the order of R102 -/

theorem not_all_isCanon {u : List Byte} (h : ¬ Canonical u) : ¬ u.all isCanon = true :=
  mt List.all_eq_true.1 h

theorem decodeTs_of_not_canonical {t : List Byte} (hlen : t.length = 10) (h : ¬ Canonical t) :
    decodeTs t = .err .invalidCharacter := by
  rw [decodeTs, if_neg (not_not_intro hlen), if_pos (not_all_isCanon h)]

theorem decodeTs_of_overflow {t : List Byte} (hlen : t.length = 10) (hcanon : Canonical t)
    (h : ¬ StartsLow t) : decodeTs t = .err .timestampOverflow := by
  have hover : tsOverflow ((t.map sym).getD 0 0) = true := by
    rw [tsOverflow_iff, ← Nat.not_le, first_le_seven_iff hcanon (by omega)]
    exact h
  rw [decodeTs, if_neg (not_not_intro hlen), if_neg (not_not_intro (List.all_eq_true.2 hcanon)),
    if_pos hover]

theorem decodeTs_of_valid {t : List Byte} (hlen : t.length = 10) (hcanon : Canonical t)
    (h : StartsLow t) : decodeTs t = .ok (bigEndian 6 (symVal (t.map sym))) :=
  (decodeTs_ok_iff t _).2 ⟨hlen, hcanon, (first_le_seven_iff hcanon (by omega)).2 h, rfl⟩

theorem decodeRnd_of_length {r : List Byte} (h : r.length ≠ 16) : decodeRnd r = .err .invalidLength :=
  if_pos h

theorem decodeRnd_of_not_canonical {r : List Byte} (hlen : r.length = 16) (h : ¬ Canonical r) :
    decodeRnd r = .err .invalidCharacter := by
  rw [decodeRnd, if_neg (not_not_intro hlen), if_pos (not_all_isCanon h)]

theorem decodeRnd_of_valid {r : List Byte} (hlen : r.length = 16) (hcanon : Canonical r) :
    decodeRnd r = .ok (bigEndian 10 (symVal (r.map sym))) :=
  (decodeRnd_ok_iff r _).2 ⟨hlen, hcanon, rfl⟩

theorem decodeUlid_of_length {u : List Byte} (h : u.length ≠ 26) : decodeUlid u = .err .invalidLength :=
  if_pos h

theorem decodeUlid_of_not_canonical {u : List Byte} (hlen : u.length = 26) (h : ¬ Canonical u) :
    decodeUlid u = .err .invalidCharacter := by
  rw [decodeUlid, if_neg (not_not_intro hlen), if_pos (not_all_isCanon h)]

/-- The top-level decoder passes the timestamp's error on (R81). -/
theorem decodeUlid_of_overflow {u : List Byte} (hlen : u.length = 26) (hcanon : Canonical u)
    (h : ¬ StartsLow u) : decodeUlid u = .err .timestampOverflow := by
  have hts : decodeTs (u.take 10) = .err .timestampOverflow :=
    decodeTs_of_overflow (by simp [hlen]) (canonical_take hcanon 10) (mt (startsLow_take u).1 h)
  rw [decodeUlid, if_neg (not_not_intro hlen), if_neg (not_not_intro (List.all_eq_true.2 hcanon)), hts]

/-- The bytes of an accepted string are the 128-bit number that its 26 symbols write (R80, R81). -/
theorem decodeUlid_of_valid {u : List Byte} (hlen : u.length = 26) (hcanon : Canonical u)
    (h : StartsLow u) : decodeUlid u = .ok (bigEndian 16 (symVal (u.map sym))) := by
  have htslen : (u.take 10).length = 10 := by simp [hlen]
  have hrndlen : (u.drop 10).length = 16 := by simp [hlen]
  have hrndcanon : Canonical (u.drop 10) := fun c hc => hcanon c (List.mem_of_mem_drop hc)
  have hlt := symVal_lt _ (sym_lt_of_canonical hrndcanon)
  rw [List.length_map, hrndlen] at hlt
  have hval : symVal (u.map sym) =
      symVal ((u.take 10).map sym) * 256 ^ 10 + symVal ((u.drop 10).map sym) := by
    rw [← List.take_append_drop 10 u, List.map_append, symVal_append, List.length_map]
    simp [hlen]
  rw [decodeUlid, if_neg (not_not_intro hlen), if_neg (not_not_intro (List.all_eq_true.2 hcanon)),
    decodeTs_of_valid htslen (canonical_take hcanon 10) ((startsLow_take u).2 h),
    decodeRnd_of_valid hrndlen hrndcanon, hval, bigEndian_mul_add 6 10 _ hlt]

/-- Exactly which strings decode, and to what (R80, R85 (b)). -/
theorem decodeUlid_ok_iff (u b : List Byte) :
    decodeUlid u = .ok b ↔ u.length = 26 ∧ Canonical u ∧ StartsLow u ∧
      b = bigEndian 16 (symVal (u.map sym)) := by
  constructor
  · intro h
    have hlen : u.length = 26 := by
      by_contra hlen
      cases (decodeUlid_of_length hlen).symm.trans h
    have hcanon : Canonical u := by
      by_contra hcanon
      cases (decodeUlid_of_not_canonical hlen hcanon).symm.trans h
    have hlow : StartsLow u := by
      by_contra hlow
      cases (decodeUlid_of_overflow hlen hcanon hlow).symm.trans h
    cases (decodeUlid_of_valid hlen hcanon hlow).symm.trans h
    exact ⟨hlen, hcanon, hlow, rfl⟩
  · rintro ⟨hlen, hcanon, hlow, rfl⟩
    exact decodeUlid_of_valid hlen hcanon hlow

/-- With the first symbol at most 7 the 26 symbols write no more than 128 bits (R80). -/
theorem symVal_lt_of_valid {u : List Byte} (hlen : u.length = 26) (hcanon : Canonical u)
    (h : StartsLow u) : symVal (u.map sym) < 2 ^ 128 := by
  have hlt := symVal_lt_of_low (sym_lt_of_canonical hcanon) ((first_le_seven_iff hcanon (by omega)).2 h)
  rw [List.length_map, hlen] at hlt
  exact hlt

/-- A decoded ULID, as a number, is the number that the string's symbols write. -/
theorem bytesValue_decodeUlid {u b : List Byte} (h : decodeUlid u = .ok b) :
    bytesValue b = symVal (u.map sym) := by
  obtain ⟨hlen, hcanon, hlow, rfl⟩ := (decodeUlid_ok_iff u b).1 h
  rw [bytesValue_bigEndian]
  exact Nat.mod_eq_of_lt (symVal_lt_of_valid hlen hcanon hlow)

theorem decodeUlid_injective {u u' b : List Byte} (h : decodeUlid u = .ok b)
    (h' : decodeUlid u' = .ok b) : u = u' := by
  obtain ⟨hlen, hcanon, -, -⟩ := (decodeUlid_ok_iff u b).1 h
  obtain ⟨hlen', hcanon', -, -⟩ := (decodeUlid_ok_iff u' b).1 h'
  exact eq_of_symVal_eq hcanon hcanon' (hlen.trans hlen'.symm)
    ((bytesValue_decodeUlid h).symm.trans (bytesValue_decodeUlid h'))

/-! ### Every number is the decoding of its text -/

/-- The text of a number whose two top bits are 0 starts with `'0'`..`'7'`. -/
theorem textOf_startsLow {n v : Nat} (hv : v < 8 * 32 ^ n) : StartsLow (textOf (n + 1) v) :=
  (first_le_seven_iff (textOf_canonical _ v) (by simp [textOf_length])).1 (textOf_low hv)

theorem decodeTs_textOf {v : Nat} (hv : v < 2 ^ 48) : decodeTs (textOf 10 v) = .ok (bigEndian 6 v) := by
  rw [decodeTs_of_valid (textOf_length 10 v) (textOf_canonical 10 v) (textOf_startsLow hv),
    textOf_symVal, Nat.mod_eq_of_lt (hv.trans (by decide))]

theorem decodeRnd_textOf {v : Nat} (hv : v < 2 ^ 80) :
    decodeRnd (textOf 16 v) = .ok (bigEndian 10 v) := by
  rw [decodeRnd_of_valid (textOf_length 16 v) (textOf_canonical 16 v), textOf_symVal,
    Nat.mod_eq_of_lt (hv.trans_eq (by decide))]

theorem decodeUlid_textOf {v : Nat} (hv : v < 2 ^ 128) :
    decodeUlid (textOf 26 v) = .ok (bigEndian 16 v) := by
  rw [decodeUlid_of_valid (textOf_length 26 v) (textOf_canonical 26 v) (textOf_startsLow hv),
    textOf_symVal, Nat.mod_eq_of_lt (hv.trans (by decide))]

/-! ### Which symbols a byte takes its bits from (R80) -/

theorem map_sym_getD {u : List Byte} {i : Nat} (hi : i < u.length) :
    (u.map sym).getD i 0 = sym (u.getD i 0) := by
  simp [List.getD_eq_getElem?_getD, hi]

/-- Two strings of 26 canonical characters that agree where bits 127−8k..120−8k stand have the same
byte k. -/
theorem bigEndian_getD_congr {u u' : List Byte} (hlen : u.length = 26) (hcanon : Canonical u)
    (hlen' : u'.length = 26) (hcanon' : Canonical u') (k : Fin 16)
    (h : ∀ i, (2 + 8 * k.val) / 5 ≤ i → i ≤ (9 + 8 * k.val) / 5 → u.getD i 0 = u'.getD i 0) :
    (bigEndian 16 (symVal (u.map sym))).getD k.val 0 =
      (bigEndian 16 (symVal (u'.map sym))).getD k.val 0 := by
  have hk := k.isLt
  rw [bigEndian_getD _ hk, bigEndian_getD _ hk, show 256 = 2 ^ 8 from rfl, ← pow_mul]
  refine BitVec.eq_of_getLsbD_eq fun m hm => ?_
  have hi := h (25 - (m + 8 * (16 - 1 - k.val)) / 5) (by omega) (by omega)
  rw [BitVec.getLsbD_ofNat, BitVec.getLsbD_ofNat, Nat.testBit_div_two_pow, Nat.testBit_div_two_pow,
    symVal_testBit (sym_lt_of_canonical hcanon) (by rw [List.length_map]; omega),
    symVal_testBit (sym_lt_of_canonical hcanon') (by rw [List.length_map]; omega),
    List.length_map, List.length_map, hlen, hlen', map_sym_getD (by omega), map_sym_getD (by omega), hi]

/-! ### The statements -/

/-- Settles O30: the digits of `val`, the bound that the overflow check gives, and the text that writes a
number. -/
theorem timestampIsTheSymbolsValue : Obligations.TimestampIsTheSymbolsValue := by
  refine ⟨fun s hlen h => symVal_digits hlen h, fun t b ht => ?_, fun v hv => ?_⟩
  · obtain ⟨hlen, hcanon, hlow, rfl⟩ := (decodeTs_ok_iff t b).1 ht
    have hlt := symVal_lt_of_low (sym_lt_of_canonical hcanon) hlow
    rw [List.length_map, hlen] at hlt
    exact ⟨bigEndian_length _ _, (bytesValue_bigEndian _ _).trans (Nat.mod_eq_of_lt hlt), hlt⟩
  · exact ⟨_, _, decodeTs_textOf hv, (bytesValue_bigEndian _ _).trans (Nat.mod_eq_of_lt hv)⟩

/-- Settles O31: sixteen symbols are eighty bits exactly, so every number fits both ways. -/
theorem randomnessIsTheSymbolsValue : Obligations.RandomnessIsTheSymbolsValue := by
  refine ⟨fun s hlen h => symVal_digits hlen h, fun r => decodeRnd_of_length,
    fun r => decodeRnd_of_not_canonical, fun r hlen hcanon => ?_, fun b hlen => ?_⟩
  · have hlt := symVal_lt _ (sym_lt_of_canonical hcanon)
    rw [List.length_map, hlen] at hlt
    exact ⟨_, decodeRnd_of_valid hlen hcanon, bigEndian_length _ _,
      (bytesValue_bigEndian _ _).trans (Nat.mod_eq_of_lt hlt)⟩
  · have hlt := bytesValue_lt b
    have hb := bigEndian_bytesValue b
    rw [hlen] at hlt hb
    exact ⟨_, (decodeRnd_textOf hlt).trans (by rw [hb])⟩

/-- Settles O33: byte k is `be`'s byte k of the symbols' number, whose bits are those of the symbols. -/
theorem ulidBitMap : Obligations.UlidBitMap := by
  refine ⟨fun u b h => ?_, fun u b u' b' h h' k hk => ?_⟩
  · obtain ⟨hlen, hcanon, hlow, rfl⟩ := (decodeUlid_ok_iff u b).1 h
    refine ⟨symVal_lt_of_valid hlen hcanon hlow, fun k => ?_⟩
    rw [bigEndian_getD _ k.isLt, BitVec.toNat_ofNat, show 256 = 2 ^ 8 from rfl, ← pow_mul]
    congr 3
    omega
  · obtain ⟨hlen, hcanon, -, rfl⟩ := (decodeUlid_ok_iff u b).1 h
    obtain ⟨hlen', hcanon', -, rfl⟩ := (decodeUlid_ok_iff u' b').1 h'
    exact bigEndian_getD_congr hlen hcanon hlen' hcanon' k hk

/-- Settles O34, by the checks in R81's order. -/
theorem ulidDecodesExactlyWhenValid : Obligations.UlidDecodesExactlyWhenValid :=
  fun _ => ⟨decodeUlid_of_length, decodeUlid_of_not_canonical, decodeUlid_of_overflow,
    fun hlen hcanon hlow => ⟨_, decodeUlid_of_valid hlen hcanon hlow, bigEndian_length _ _⟩⟩

/-- Settles O35: sixteen bytes are a 128-bit number, which has exactly one text. -/
theorem ulidDecodingIsABijection : Obligations.UlidDecodingIsABijection := by
  refine ⟨fun b hlen => ?_, fun _ _ => decodeUlid_length, by decide⟩
  have hlt := bytesValue_lt b
  have hb := bigEndian_bytesValue b
  rw [hlen] at hlt hb
  have htext : decodeUlid (textOf 26 (bytesValue b)) = .ok b := (decodeUlid_textOf hlt).trans (by rw [hb])
  exact ⟨_, htext, fun u hu => decodeUlid_injective hu htext⟩

/-- Settles O36, by the two sub-decoders that a successful decode has run. -/
theorem ulidDecodeSplitsIntoItsSegments : Obligations.UlidDecodeSplitsIntoItsSegments :=
  fun _ _ => decodeUlid_ok

/-- Settles O37: both orders are the order of the same number. -/
theorem ulidDecodingKeepsOrder : Obligations.UlidDecodingKeepsOrder := by
  intro u u' b b' h h'
  obtain ⟨hlen, hcanon, -, -⟩ := (decodeUlid_ok_iff u b).1 h
  obtain ⟨hlen', hcanon', -, -⟩ := (decodeUlid_ok_iff u' b').1 h'
  rw [lt_iff_symVal_lt hcanon hcanon' (hlen.trans hlen'.symm),
    lt_iff_bytesValue_lt ((decodeUlid_length h).trans (decodeUlid_length h').symm),
    bytesValue_decodeUlid h, bytesValue_decodeUlid h']

/-- Settles O29: over the alphabet, `'8'` is the first character past symbol 7. -/
theorem timestampOverflowRule : Obligations.TimestampOverflowRule := by
  refine ⟨fun x => ⟨tsOverflow_iff x.val, ?_⟩, fun b hb => ?_⟩
  · rw [tsOverflow_iff]
    omega
  · obtain ⟨i, rfl⟩ := (isCanon_iff_alphabetAt b).1 hb
    obtain ⟨-, hsym⟩ := alphabetAt_canon i.isLt
    rw [tsOverflow_iff, hsym]
    exact seven_lt_iff_alphabetAt i

end Sys2Proof.Machine
end

section
/-! The decode commands in every state (R82–R84), and what each command leaves alone. -/

namespace Sys2Proof.Machine

open Claims

/-! ### Completions of a decode command -/

/-- Everything that a data error leaves (R104). -/
theorem raise_of_data (s : State) {e : ErrorCode} (he : e ≠ .illegalCommand) :
    s.raise e = { s with obuf := Vector.replicate 16 0, olen := 0, status := 0x80 ||| errCode e } := by
  cases e with
  | illegalCommand => exact absurd rfl he
  | _ => rw [State.raise, State.dropDecoded, padded_nil]; rfl

/-- A decode command with a length other than its own. -/
theorem runDecoder_of_ilen {s : State} {n : Byte} (h : s.ilen ≠ n) (f : List Byte → Result (List Byte))
    (olen : Byte) : runDecoder n.toNat f olen s =
      { s with obuf := Vector.replicate 16 0, olen := 0, status := 0x80 ||| 1 } := by
  rw [runDecoder_of_length (mt BitVec.eq_of_toNat_eq h), raise_of_data s (by decide)]
  rfl

theorem runDecoder_of_data_err {s : State} {n : Byte} {f : List Byte → Result (List Byte)} {e : ErrorCode}
    (hn : s.ilen = n) (hf : f (s.ibuf.toList.take n.toNat) = .err e) (he : e ≠ .illegalCommand)
    (olen : Byte) : runDecoder n.toNat f olen s =
      { s with obuf := Vector.replicate 16 0, olen := 0, status := 0x80 ||| errCode e } := by
  rw [runDecoder_of_err (congrArg _ hn) hf, raise_of_data s he]

/-- A decode command whose decoder gives no more bytes than `OBUF` holds. -/
theorem runDecoder_of_bytes {s : State} {n : Byte} {f : List Byte → Result (List Byte)} {b : List Byte}
    (hn : s.ilen = n) (hf : f (s.ibuf.toList.take n.toNat) = .ok b) (hb : b.length ≤ 16) (olen : Byte) :
    ∃ B : Vector Byte 16, B.toList = b ++ List.replicate (16 - b.length) 0 ∧
      runDecoder n.toNat f olen s = { s with obuf := B, olen := olen, status := 0x80 ||| 0 } :=
  ⟨padded 16 b, padded_toList_append 16 b hb, runDecoder_of_ok (congrArg _ hn) hf olen⟩

theorem take_ibuf_length (s : State) {n : Nat} (hn : n ≤ 32) : (s.ibuf.toList.take n).length = n := by
  rw [List.length_take, Vector.length_toList]
  exact Nat.min_eq_left hn

/-- Settles O38, by the four kinds of input that `decodeUlid` separates. -/
theorem decodeCommandOutcome : Obligations.DecodeCommandOutcome := by
  intro s
  have hlen := take_ibuf_length s (n := 26) (by decide)
  refine ⟨fun h hcanon hlow => ?_, fun h => ?_, fun h hcanon => ?_, fun h hcanon hlow => ?_⟩
  · have hok := decodeUlid_of_valid hlen hcanon hlow
    obtain ⟨B, hB, hrun⟩ := runDecoder_of_bytes h hok (by simp) 16
    refine ⟨B, ?_, congrArg Host.Outcome.next hrun⟩
    rw [hok, hB]
    simp
  · exact congrArg Host.Outcome.next (runDecoder_of_ilen h decodeUlid 16)
  · exact congrArg Host.Outcome.next
      (runDecoder_of_data_err h (decodeUlid_of_not_canonical hlen hcanon) (by decide) 16)
  · exact congrArg Host.Outcome.next
      (runDecoder_of_data_err h (decodeUlid_of_overflow hlen hcanon hlow) (by decide) 16)

/-- Settles O39, by the four kinds of input that `decodeTs` separates. -/
theorem dectsCommandOutcome : Obligations.DectsCommandOutcome := by
  intro s
  have hlen := take_ibuf_length s (n := 10) (by decide)
  refine ⟨fun h hcanon hlow => ?_, fun h => ?_, fun h hcanon => ?_, fun h hcanon hlow => ?_⟩
  · have hok := decodeTs_of_valid hlen hcanon hlow
    have hsix := decodeTs_length hok
    obtain ⟨B, hB, hrun⟩ := runDecoder_of_bytes h hok (by omega) 6
    rw [hsix] at hB
    exact ⟨_, B, hsix, hB, hok, congrArg Host.Outcome.next hrun⟩
  · exact congrArg Host.Outcome.next (runDecoder_of_ilen h decodeTs 6)
  · exact congrArg Host.Outcome.next
      (runDecoder_of_data_err h (decodeTs_of_not_canonical hlen hcanon) (by decide) 6)
  · exact congrArg Host.Outcome.next
      (runDecoder_of_data_err h (decodeTs_of_overflow hlen hcanon hlow) (by decide) 6)

/-- Settles O40, by the three kinds of input that `decodeRnd` separates. -/
theorem decrndCommandOutcome : Obligations.DecrndCommandOutcome := by
  intro s
  have hlen := take_ibuf_length s (n := 16) (by decide)
  refine ⟨fun h hcanon => ?_, fun h => ?_, fun h hcanon => ?_⟩
  · have hok := decodeRnd_of_valid hlen hcanon
    have hten := decodeRnd_length hok
    obtain ⟨B, hB, hrun⟩ := runDecoder_of_bytes h hok (by omega) 10
    rw [hten] at hB
    exact ⟨_, B, hten, hB, hok, congrArg Host.Outcome.next hrun⟩
  · exact congrArg Host.Outcome.next (runDecoder_of_ilen h decodeRnd 10)
  · exact congrArg Host.Outcome.next
      (runDecoder_of_data_err h (decodeRnd_of_not_canonical hlen hcanon) (by decide) 10)

/-! ### The frame of a command -/

/-- What a decoder writes (R82–R84). -/
def Reg.decoded : Reg → Bool
  | .obuf _ | .olen | .status => true
  | .ibuf _ | .ilen | .arg | .cmd | .res | .tlen | .tbuf _ => false

/-- What `B64` writes (R91). -/
def Reg.text : Reg → Bool
  | .tbuf _ | .tlen | .status => true
  | .ibuf _ | .ilen | .arg | .cmd | .res | .olen | .obuf _ => false

/-- What `LOOKUP` and `ALPHA` write (R72, R73). -/
def Reg.scalar : Reg → Bool
  | .res | .status => true
  | .ibuf _ | .ilen | .arg | .cmd | .olen | .tlen | .obuf _ | .tbuf _ => false

theorem get_setDecoded_other {r : Reg} (h : r.decoded = false) (s : State) (n : Byte) (b : List Byte) :
    (s.setDecoded n b).get r = s.get r := by
  cases r <;> simp_all [Reg.decoded, State.get]

theorem get_setText_other {r : Reg} (h : r.text = false) (s : State) (t : List Byte) :
    (s.setText t).get r = s.get r := by
  cases r <;> simp_all [Reg.text, State.get]

theorem get_setRes_other {r : Reg} (h : r.scalar = false) (s : State) (v : Byte) :
    (s.setRes v).get r = s.get r := by
  cases r <;> simp_all [Reg.scalar, State.get]

/-- An error leaves at most a decoder's registers changed (R104). -/
theorem get_raise_other {r : Reg} (h : r.decoded = false) (s : State) (e : ErrorCode) :
    (s.raise e).get r = s.get r := by
  cases r <;> simp_all [Reg.decoded, State.get]

/-- `ILLEGAL_COMMAND` changes `STATUS` only (R104). -/
theorem get_raise_illegal_other {r : Reg} (h : r ≠ .status) (s : State) :
    (s.raise .illegalCommand).get r = s.get r := by
  cases r <;> simp_all [State.get]

/-- The registers that a command may write. -/
def Reg.writtenBy : Instr → Reg → Bool
  | .nop, _ => false
  | .decode, r | .dects, r | .decrnd, r => r.decoded
  | .b64 _, r => r.text
  | .lookup, r | .alpha, r => r.scalar
  | .clr, _ => true

/-- The addresses that a command may change are those of the registers that it may write. -/
theorem writes_addr (i : Instr) (r : Reg) : writes i r.addr = Reg.writtenBy i r := by
  have all : ∀ j ∈ allCommands, ∀ a : Byte,
      (locate a).all (fun q => writes j a == q.writtenBy j) = true := by decide +kernel
  have hi : i ∈ allCommands := by
    cases i with
    | b64 src => cases src <;> decide
    | _ => decide
  simpa using all i hi r.addr

/-- A command's result leaves every register that the command may not write. -/
theorem get_of_execKind {i : Instr} {s t : State} (h : ExecKind i s t) {r : Reg}
    (hr : r.writtenBy i = false) : t.get r = s.get r := by
  obtain ⟨-, rfl⟩ | ⟨rfl, -⟩ | ⟨hi, v, rfl⟩ | ⟨hi, n, b, rfl⟩ | ⟨⟨src, rfl⟩, x, rfl⟩ |
    ⟨hi, e, -, rfl⟩ | ⟨hi, rfl⟩ := h
  · rfl
  · cases hr
  · exact get_setRes_other (by obtain rfl | rfl := hi <;> exact hr) s v
  · exact get_setDecoded_other (by obtain rfl | rfl | rfl := hi <;> exact hr) s n b
  · exact get_setText_other hr s x
  · exact get_raise_other (by obtain rfl | rfl | rfl := hi <;> exact hr) s e
  · refine get_raise_illegal_other ?_ s
    rintro rfl
    obtain rfl | ⟨src, rfl⟩ := hi <;> cases hr

theorem hostLists_of_execKind {i : Instr} {s t : State} (h : ExecKind i s t) :
    t.pending = s.pending ∧ t.observed = s.observed := by
  obtain ⟨-, rfl⟩ | ⟨-, rfl⟩ | ⟨-, v, rfl⟩ | ⟨-, n, b, rfl⟩ | ⟨-, x, rfl⟩ | ⟨-, e, -, rfl⟩ |
    ⟨-, rfl⟩ := h
  all_goals simp

/-- Settles O58: an address is reserved or a register's, and a command leaves what it may not write. -/
theorem commandsLeaveOtherAddressesAlone : Obligations.CommandsLeaveOtherAddressesAlone := by
  intro i s t ht
  have hkind := execKind_of_exec ht
  refine ⟨fun a ha => ?_, hostLists_of_execKind hkind⟩
  cases hloc : locate a with
  | none => rw [hostRead_reserved t hloc, hostRead_reserved s hloc]
  | some r =>
    obtain rfl := addr_of_locate hloc
    rw [hostRead_addr, hostRead_addr, get_of_execKind hkind (writes_addr i r ▸ ha)]

end Sys2Proof.Machine
end

section
/-! The renderer (42_base64.md): its alphabet, its groups' digits, the shape of a text, its inverse, and
`B64` in every state. -/

namespace Sys2Proof.Machine

/-! ### The alphabet (R87) -/

theorem base64Text_getElem? (i : BitVec 6) : Claims.base64Text[i.toNat]? = some (b64Char i) := by
  revert i
  decide

theorem b64Char_mem_base64Text (i : BitVec 6) : b64Char i ∈ Claims.base64Text :=
  List.mem_of_getElem? (base64Text_getElem? i)

/-- Settles O42, by the table's 64 entries. -/
theorem base64AlphabetTable : Obligations.Base64AlphabetTable :=
  ⟨by decide, base64Text_getElem?, rfl, by decide, by decide, by decide⟩

/-! ### The digits of a group (R88) -/

theorem base64_pair (a b : Byte) :
    base64 [a, b] = [b64Digit (b64Group a b 0) 18, b64Digit (b64Group a b 0) 12,
      b64Digit (b64Group a b 0) 6, b64Pad] := rfl

theorem base64_single (a : Byte) :
    base64 [a] = [b64Digit (b64Group a 0 0) 18, b64Digit (b64Group a 0 0) 12, b64Pad, b64Pad] := rfl

/-- `BitVec.toNat_zero` for the numeral 0, as the model writes the missing bytes. -/
theorem toNat_zeroWord {w : Nat} : BitVec.toNat (0 : BitVec w) = 0 := BitVec.toNat_zero

/-- The four digits of a group write the number of its three bytes. -/
theorem b64Group_digits_eq (a b c : Byte) :
    ((b64Group a b c).extractLsb' 18 6).toNat * 64 ^ 3 +
      ((b64Group a b c).extractLsb' 12 6).toNat * 64 ^ 2 +
      ((b64Group a b c).extractLsb' 6 6).toNat * 64 + ((b64Group a b c).extractLsb' 0 6).toNat =
        a.toNat * 2 ^ 16 + b.toNat * 2 ^ 8 + c.toNat :=
  (b64Group_digits _).trans (b64Group_toNat a b c)

/-- With the third byte missing, the digit that the pad replaces is 0: 2^8 is a multiple of 64. -/
theorem b64Group_pair_digit (a b : Byte) : (b64Group a b 0).extractLsb' 0 6 = 0 := by
  have h := b64Group_digits_eq a b 0
  have hlow := ((b64Group a b 0).extractLsb' 0 6).isLt
  rw [toNat_zeroWord] at h
  exact BitVec.eq_of_toNat_eq (by rw [toNat_zeroWord]; omega)

/-- With two bytes missing, the second pad replaces a digit 0 too: 2^16 is a multiple of 64^2. -/
theorem b64Group_single_digit (a : Byte) : (b64Group a 0 0).extractLsb' 6 6 = 0 := by
  have h := b64Group_digits_eq a 0 0
  have hmid := ((b64Group a 0 0).extractLsb' 6 6).isLt
  rw [b64Group_pair_digit, toNat_zeroWord, toNat_zeroWord] at h
  exact BitVec.eq_of_toNat_eq (by rw [toNat_zeroWord]; omega)

/-- Settles O43: the digits are the group's own, and those that pads replace are 0. -/
theorem base64DigitsOfEachGroup : Obligations.Base64DigitsOfEachGroup := by
  refine ⟨rfl, fun a b c rest => ⟨_, _, _, _, base64_group a b c rest, b64Group_digits_eq a b c⟩,
    fun a b => ⟨_, _, _, base64_pair a b, ?_⟩, fun a => ⟨_, _, base64_single a, ?_⟩⟩
  · simpa only [b64Group_pair_digit, toNat_zeroWord, Nat.add_zero] using b64Group_digits_eq a b 0
  · simpa only [b64Group_single_digit, b64Group_pair_digit, toNat_zeroWord, Nat.zero_mul,
      Nat.add_zero] using b64Group_digits_eq a 0 0

/-! ### The shape of a text (R90, R92) -/

/-- A text is characters of the alphabet and then its pads. -/
theorem base64_eq_chars_append_pads (d : List Byte) : ∃ digits : List (BitVec 6),
    base64 d = digits.map b64Char ++ List.replicate ((3 - d.length % 3) % 3) b64Pad := by
  induction d using base64.induct with
  | case1 a b c rest ih =>
    obtain ⟨digits, ih⟩ := ih
    have hmod : (a :: b :: c :: rest).length % 3 = rest.length % 3 := Nat.add_mod_right _ 3
    rw [base64_group, ih, hmod]
    exact ⟨_ :: _ :: _ :: _ :: digits, rfl⟩
  | case2 a b => exact ⟨[_, _, _], base64_pair a b⟩
  | case3 a => exact ⟨[_, _], base64_single a⟩
  | case4 => exact ⟨[], rfl⟩

theorem pad_notMem_chars (digits : List (BitVec 6)) : b64Pad ∉ digits.map b64Char := by
  intro h
  obtain ⟨i, -, hi⟩ := List.mem_map.1 h
  exact b64Char_ne_pad i hi

theorem base64_count_pad (d : List Byte) : (base64 d).count b64Pad = (3 - d.length % 3) % 3 := by
  obtain ⟨digits, h⟩ := base64_eq_chars_append_pads d
  rw [h, List.count_append, List.count_eq_zero_of_not_mem (pad_notMem_chars digits),
    List.count_replicate_self, Nat.zero_add]

/-- The pads are the end of the text. -/
theorem base64_drop {d : List Byte} {k p : Nat} (hp : (3 - d.length % 3) % 3 = p)
    (hk : (base64 d).length = k + p) : (base64 d).drop k = List.replicate p b64Pad := by
  obtain ⟨digits, h⟩ := base64_eq_chars_append_pads d
  rw [hp] at h
  rw [h, List.length_append, List.length_replicate] at hk
  rw [h, List.drop_left' (Nat.add_right_cancel hk)]

/-- Settles O44, by the shape of a text. -/
theorem base64LengthAndPadding : Obligations.Base64LengthAndPadding := by
  refine ⟨fun d => ⟨base64_length d, base64_count_pad d⟩, fun d hd => ?_, fun d hd => ?_⟩
  · have hlen : (base64 d).length = 24 := by rw [base64_length, hd]
    exact ⟨hlen, base64_drop (p := 2) (by rw [hd]) hlen⟩
  · have hlen : (base64 d).length = 44 := by rw [base64_length, hd]
    exact ⟨hlen, base64_drop (p := 1) (by rw [hd]) hlen⟩

/-! ### The text determines its bytes (R92) -/

/-- The text's length and its number of pads give the number of bytes. -/
theorem length_eq_of_base64_eq {d d' : List Byte} (h : base64 d = base64 d') :
    d.length = d'.length := by
  have hlen := congrArg List.length h
  have hpads := congrArg (List.count b64Pad) h
  rw [base64_length, base64_length] at hlen
  rw [base64_count_pad, base64_count_pad] at hpads
  omega

theorem b64Group_injective {a b c a' b' c' : Byte} (h : b64Group a b c = b64Group a' b' c') :
    a = a' ∧ b = b' ∧ c = c' := by
  have hnum := congrArg BitVec.toNat h
  rw [b64Group_toNat, b64Group_toNat] at hnum
  have hb := b.isLt
  have hc := c.isLt
  have hb' := b'.isLt
  have hc' := c'.isLt
  refine ⟨BitVec.eq_of_toNat_eq ?_, BitVec.eq_of_toNat_eq ?_, BitVec.eq_of_toNat_eq ?_⟩ <;> omega

/-- A group is determined by its four digits. -/
theorem eq_of_b64Digits {w w' : BitVec 24} (h3 : b64Digit w 18 = b64Digit w' 18)
    (h2 : b64Digit w 12 = b64Digit w' 12) (h1 : b64Digit w 6 = b64Digit w' 6)
    (h0 : b64Digit w 0 = b64Digit w' 0) : w = w' := by
  refine BitVec.eq_of_toNat_eq ?_
  rw [← b64Group_digits w, ← b64Group_digits w', b64Char_injective _ _ h3, b64Char_injective _ _ h2,
    b64Char_injective _ _ h1, b64Char_injective _ _ h0]

theorem b64Digit_pair (a b : Byte) : b64Digit (b64Group a b 0) 0 = b64Char 0 := by
  rw [b64Digit, b64Group_pair_digit]

theorem b64Digit_single (a : Byte) : b64Digit (b64Group a 0 0) 6 = b64Char 0 := by
  rw [b64Digit, b64Group_single_digit]

theorem base64_injective {d d' : List Byte} (h : base64 d = base64 d') : d = d' := by
  have hlen := length_eq_of_base64_eq h
  induction d using base64.induct generalizing d' with
  | case1 a b c rest ih =>
    match d', hlen with
    | a' :: b' :: c' :: rest', _ =>
      simp only [base64_group, List.cons.injEq] at h
      obtain ⟨h3, h2, h1, h0, hrest⟩ := h
      obtain ⟨rfl, rfl, rfl⟩ := b64Group_injective (eq_of_b64Digits h3 h2 h1 h0)
      rw [ih hrest (length_eq_of_base64_eq hrest)]
  | case2 a b =>
    obtain ⟨a', b', rfl⟩ := List.length_eq_two.1 hlen.symm
    simp only [base64_pair, List.cons.injEq] at h
    obtain ⟨h3, h2, h1, -⟩ := h
    obtain ⟨rfl, rfl, -⟩ := b64Group_injective
      (eq_of_b64Digits h3 h2 h1 ((b64Digit_pair a b).trans (b64Digit_pair a' b').symm))
    rfl
  | case3 a =>
    obtain ⟨a', rfl⟩ := List.length_eq_one_iff.1 hlen.symm
    simp only [base64_single, List.cons.injEq] at h
    obtain ⟨h3, h2, -⟩ := h
    obtain ⟨rfl, -⟩ := b64Group_injective
      (eq_of_b64Digits h3 h2 ((b64Digit_single a).trans (b64Digit_single a').symm)
        ((b64Digit_pair a 0).trans (b64Digit_pair a' 0).symm))
    rfl
  | case4 => exact (List.length_eq_zero_iff.1 hlen.symm).symm

/-- A character of a text is of the alphabet, or it is one of the pads that end the text. -/
theorem base64_char_cases {d : List Byte} {i : Nat} {c : Byte} (h : (base64 d)[i]? = some c) :
    c ∈ Claims.base64Text ∨ (c = b64Pad ∧ (base64 d).length ≤ i + 2) := by
  obtain ⟨digits, hd⟩ := base64_eq_chars_append_pads d
  rw [hd] at h ⊢
  obtain hi | hi := Nat.lt_or_ge i (digits.map b64Char).length
  · rw [List.getElem?_append_left hi] at h
    obtain ⟨j, -, rfl⟩ := List.mem_map.1 (List.mem_of_getElem? h)
    exact .inl (b64Char_mem_base64Text j)
  · rw [List.getElem?_append_right hi] at h
    refine .inr ⟨List.eq_of_mem_replicate (List.mem_of_getElem? h), ?_⟩
    rw [List.length_append, List.length_replicate]
    omega

/-- Settles O45: an injective function has a left inverse. -/
theorem base64IsInvertible : Obligations.Base64IsInvertible :=
  ⟨fun _ _ => base64_injective, fun _ _ _ => base64_char_cases,
    Function.Injective.hasLeftInverse fun _ _ => base64_injective⟩

/-! ### `B64` in every state (R91) -/

/-- `B64` on `n` bytes that it does not reject. -/
theorem exec_b64_of_length {src : Source} {s : State} {n : Nat}
    (hok : ¬ (src = .ibuf ∧ 32 < s.ilen.toNat)) (hn : (s.b64Input src).length = n) :
    ∃ T : Vector Byte 44,
      T.toList = base64 (s.b64Input src) ++ List.replicate (44 - 4 * ((n + 2) / 3)) 0 ∧
      exec (.b64 src) s = .next { s with
        tbuf := T, tlen := BitVec.ofNat 8 (4 * ((n + 2) / 3)), status := 0x80 ||| 0 } := by
  have hin := b64Input_length_le src s
  have hout := base64_length (s.b64Input src)
  obtain ⟨-, hx⟩ | ⟨hlong, -⟩ := execB64_cases src s
  · rw [← hn, ← hout]
    exact ⟨padded 44 _, padded_toList_append 44 _ (by omega), hx⟩
  · exact absurd hlong hok

/-- `B64` from `IBUF` with more bytes than it holds. -/
theorem exec_b64_of_long {s : State} (h : 32 < s.ilen.toNat) :
    exec (.b64 .ibuf) s = .next (s.raise .illegalCommand) := by
  obtain ⟨hok, -⟩ | ⟨-, hx⟩ := execB64_cases .ibuf s
  · exact absurd ⟨rfl, h⟩ hok
  · exact hx

/-- Settles O46: the two sources have `ILEN` and `OLEN` bytes. -/
theorem base64CommandOutcome : Obligations.Base64CommandOutcome := by
  refine fun s => ⟨fun h => ?_, fun h => ?_, exec_b64_of_long⟩
  · exact exec_b64_of_length (src := .ibuf) (fun hlong => Nat.not_lt.2 h hlong.2)
      (take_ibuf_length s h)
  · refine exec_b64_of_length (src := .obuf) (fun hlong => nomatch hlong.1) ?_
    rw [State.b64Input, List.length_take, Vector.length_toList]
    exact Nat.min_eq_left h

end Sys2Proof.Machine
end

section
/-! The control commands (R93, R94), and the fixed sequence of `DECODE` and `B64` from `OBUF` (R95). -/

namespace Sys2Proof.Machine

/-! ### `NOP` and `CLR` -/

theorem exec_nop (s : State) : exec .nop s = .next s := rfl

theorem exec_clr (s : State) : exec .clr s = .next s.clear := rfl

/-- Settles O21: `CLR` is `State.clear`, and its byte with `SRC` or a bit of `RSV` set is not legal. -/
theorem clrClearsEveryRegister : Obligations.ClrClearsEveryRegister :=
  ⟨exec_clr, decode_encode .clr, decode_error_of_illegal (by decide),
    decode_error_of_illegal (by decide)⟩

/-- Settles O22: `NOP` returns its state, and the four bytes listed are not legal. -/
theorem nopLeavesEverythingElse : Obligations.NopLeavesEverythingElse := by
  have hillegal : ∀ v ∈ ([0x10, 0x20, 0x40, 0x80] : List Byte), legal v = false := by decide
  exact ⟨exec_nop, fun s => (perform_command 0x00 s).trans (runCommand_nop s),
    fun s v hv => (perform_command v s).trans (runCommand_of_illegal (hillegal v hv) s)⟩

/-! ### The string that a state presents -/

/-- Every state presents `IBUF[0..ILEN)`: `IBUF` is longer than 26, so this has 26 characters exactly
when `ILEN` is 26. -/
theorem presents_ibuf (s : State) : s.Presents (s.b64Input .ibuf) := by
  have hlen : (s.b64Input .ibuf).length = min s.ilen.toNat 32 := by simp [State.b64Input]
  refine ⟨by omega, fun h => ?_⟩
  have h26 : s.ilen.toNat = 26 := by omega
  rw [State.b64Input, h26, State.input]

/-- What `DECODE` makes of a state's registers (R82) is what `decodeUlid` gives of the presented
string. -/
theorem decodeUlid_ibuf (s : State) : decodeUlid (s.b64Input .ibuf) =
    if s.ilen = 26 then decodeUlid (s.ibuf.toList.take 26) else .err .invalidLength := by
  obtain ⟨hlen, -⟩ := presents_ibuf s
  split
  · next h => rw [State.b64Input, h]; rfl
  · next h => exact decodeUlid_of_length (mt hlen.2 (mt (BitVec.eq_of_toNat_eq (y := 26)) h))

/-! ### `B64` from `OBUF` -/

/-- `B64` from `OBUF` never fails (R91). -/
theorem step_b64_obuf {s : State} {rest : List HostAccess} (hp : s.pending = .write 0x22 0x14 :: rest) :
    step s = .next
      ((State.put { s with pending := rest } .cmd 0x14).setText (base64 (s.b64Input .obuf))) := by
  have hrun := (step_command hp).trans (runCommand_legal (decode_encode (.b64 .obuf)) _)
  obtain ⟨-, hx⟩ | ⟨hlong, -⟩ :=
    execB64_cases .obuf (State.put { s with pending := rest } .cmd 0x14)
  · exact hrun.trans hx
  · exact nomatch hlong.1

theorem b64Input_obuf_of_full {s : State} (h : s.olen = 16) : s.b64Input .obuf = s.obuf.toList := by
  rw [State.b64Input, h]
  exact List.take_of_length_le (by simp)

theorem b64Input_obuf_of_empty {s : State} (h : s.olen = 0) : s.b64Input .obuf = [] := by
  rw [State.b64Input, h]
  exact List.take_zero

/-- `TBUF` and `TLEN` with the text of 16 bytes (R90, R91). -/
theorem setText_base64_of_sixteen (s : State) {b : List Byte} (hb : b.length = 16) :
    (s.setText (base64 b)).tlen = 24 ∧
      (s.setText (base64 b)).tbuf.toList = base64 b ++ List.replicate 20 0 := by
  have hlen : (base64 b).length = 24 := by rw [base64_length, hb]
  have htext := padded_toList_append Config.tbufSize (base64 b) (by rw [hlen]; decide)
  rw [hlen] at htext
  exact ⟨congrArg (BitVec.ofNat 8) hlen, htext⟩

/-- Settles O47: `DECODE` leaves `OLEN` 16 with the bytes or `OLEN` 0, and `B64` renders that many bytes
of `OBUF`. -/
theorem decodeThenRenderGivesItsText : Obligations.DecodeThenRenderGivesItsText := by
  intro s rest hp
  obtain ⟨d, hd, hpend, -, hdecoded⟩ := step_decode_of_presents hp (presents_ibuf s)
  refine ⟨_, (run_succ hd 1).trans (run_one (step_b64_obuf hpend)), rfl, rfl, ?_⟩
  rw [← decodeUlid_ibuf]
  obtain ⟨b, hb, hobuf, holen, -⟩ | ⟨e, he, -, holen, -⟩ := hdecoded
  · have hlen := decodeUlid_length hb
    obtain ⟨-, hsixteen, -⟩ := base64LengthAndPadding
    obtain ⟨-, hpads⟩ := hsixteen b hlen
    obtain ⟨htlen, htbuf⟩ :=
      setText_base64_of_sixteen (State.put { d with pending := rest } .cmd 0x14) hlen
    rw [hb, b64Input_obuf_of_full holen, hobuf]
    exact ⟨hobuf, holen, htlen, htbuf, hpads⟩
  · rw [he, b64Input_obuf_of_empty holen]
    exact ⟨holen, rfl, padded_nil _⟩

end Sys2Proof.Machine
end

section
/-! Errors (R97–R106): no run stops, `STATUS` after every command, and what an error leaves in the result
registers. -/

namespace Sys2Proof.Machine

open Claims

/-! ### `STATUS.ERR` (R24) -/

theorem errField_of_completed {s : State} (h : s.status = statusOk) : s.errField.toNat = 0 := by
  rw [State.errField, h]
  decide

theorem errField_clear (s : State) : s.clear.errField.toNat = 0 := by
  rw [State.errField, clear_status]
  decide

theorem errField_raise (s : State) (e : ErrorCode) :
    (s.raise e).errField.toNat = (errCode e).toNat := by
  rw [State.errField, raise_status]
  cases e <;> decide

/-! ### `STATUS` after a decode command (R98–R100) -/

/-- `STATUS` of the two ways a decoder ends (R82–R84). -/
def decoderStatus : Result (List Byte) → Byte
  | .ok _ => statusOk
  | .err e => statusError e

/-- The length check comes first, and the text whose length passes is `IBUF[0..ILEN)`. -/
theorem status_runDecoder (n : Byte) (f : List Byte → Result (List Byte)) (olen : Byte) (s : State) :
    (runDecoder n.toNat f olen s).status =
      if s.ilen ≠ n then 0x81 else decoderStatus (f (s.ibuf.toList.take s.ilen.toNat)) := by
  by_cases hn : s.ilen = n
  · subst hn
    rw [if_neg (not_not_intro rfl)]
    cases hf : f (s.input s.ilen.toNat) with
    | ok b => rw [runDecoder_of_ok rfl hf, ← State.input, hf, setDecoded_status, decoderStatus]
    | err e => rw [runDecoder_of_err rfl hf, ← State.input, hf, raise_status, decoderStatus]
  · rw [if_pos hn, runDecoder_of_ilen hn]
    rfl

/-- `STATUS` for a text of the right length that starts with a timestamp: the character check over all
of it comes before the overflow check (R102). -/
def timedTextStatus (u : List Byte) : Byte :=
  if ¬ Canonical u then 0x82 else if ¬ StartsLow u then 0x83 else 0x80

/-- `STATUS` for a text of the right length that has no timestamp (R84). -/
def untimedTextStatus (u : List Byte) : Byte := if ¬ Canonical u then 0x82 else 0x80

theorem decoderStatus_decodeUlid {u : List Byte} (hlen : u.length = 26) :
    decoderStatus (decodeUlid u) = timedTextStatus u := by
  unfold timedTextStatus
  split_ifs with hcanon hlow
  · rw [decodeUlid_of_valid hlen hcanon hlow]; rfl
  · rw [decodeUlid_of_overflow hlen hcanon hlow]; rfl
  · rw [decodeUlid_of_not_canonical hlen hcanon]; rfl

theorem decoderStatus_decodeTs {t : List Byte} (hlen : t.length = 10) :
    decoderStatus (decodeTs t) = timedTextStatus t := by
  unfold timedTextStatus
  split_ifs with hcanon hlow
  · rw [decodeTs_of_valid hlen hcanon hlow]; rfl
  · rw [decodeTs_of_overflow hlen hcanon hlow]; rfl
  · rw [decodeTs_of_not_canonical hlen hcanon]; rfl

theorem decoderStatus_decodeRnd {r : List Byte} (hlen : r.length = 16) :
    decoderStatus (decodeRnd r) = untimedTextStatus r := by
  unfold untimedTextStatus
  split_ifs with hcanon
  · rw [decodeRnd_of_valid hlen hcanon]; rfl
  · rw [decodeRnd_of_not_canonical hlen hcanon]; rfl

/-! ### `STATUS` after any command (R102) -/

/-- `STATUS` after a command in a state, by the command's own checks in order. -/
def State.statusAfter (s : State) : Instr → Byte
  | .nop => s.status
  | .clr => 0x00
  | .lookup | .b64 .obuf => 0x80
  | .alpha => if 32 ≤ s.arg.toNat then 0x84 else 0x80
  | .b64 .ibuf => if 32 < s.ilen.toNat then 0x84 else 0x80
  | .decode => if s.ilen ≠ 26 then 0x81 else timedTextStatus (s.ibuf.toList.take s.ilen.toNat)
  | .dects => if s.ilen ≠ 10 then 0x81 else timedTextStatus (s.ibuf.toList.take s.ilen.toNat)
  | .decrnd => if s.ilen ≠ 16 then 0x81 else untimedTextStatus (s.ibuf.toList.take s.ilen.toNat)

theorem take_ilen_length {s : State} {n : Byte} (h : s.ilen = n) (hn : n.toNat ≤ 32) :
    (s.ibuf.toList.take s.ilen.toNat).length = n.toNat := by
  rw [h, take_ibuf_length s hn]

theorem status_of_exec {i : Instr} {s t : State} (h : exec i s = .next t) :
    t.status = s.statusAfter i := by
  cases i with
  | nop => cases h; rfl
  | clr => cases h; rfl
  | lookup => cases h; rfl
  | alpha =>
    obtain ⟨hlt, hx⟩ | ⟨hge, hx⟩ := execAlpha_cases s <;> cases hx.symm.trans h
    · exact (if_neg (Nat.not_le.2 hlt)).symm
    · exact (if_pos hge).symm
  | b64 src =>
    obtain ⟨hok, hx⟩ | ⟨⟨rfl, hlong⟩, hx⟩ := execB64_cases src s <;> cases hx.symm.trans h
    · cases src with
      | ibuf => exact (if_neg fun hlong => hok ⟨rfl, hlong⟩).symm
      | obuf => rfl
    · exact (if_pos hlong).symm
  | decode =>
    cases h
    refine (status_runDecoder 26 decodeUlid 16 s).trans (ite_congr rfl (fun _ => rfl) fun hn => ?_)
    exact decoderStatus_decodeUlid (take_ilen_length (not_not.1 hn) (by decide))
  | dects =>
    cases h
    refine (status_runDecoder 10 decodeTs 6 s).trans (ite_congr rfl (fun _ => rfl) fun hn => ?_)
    exact decoderStatus_decodeTs (take_ilen_length (not_not.1 hn) (by decide))
  | decrnd =>
    cases h
    refine (status_runDecoder 16 decodeRnd 10 s).trans (ite_congr rfl (fun _ => rfl) fun hn => ?_)
    exact decoderStatus_decodeRnd (take_ilen_length (not_not.1 hn) (by decide))

/-- The checks read operands and `STATUS` only, which the write to `CMD` leaves alone. -/
theorem statusAfter_putCmd (s : State) (rest : List HostAccess) (v : Byte) (i : Instr) :
    (State.put { s with pending := rest } .cmd v).statusAfter i = s.statusAfter i := by
  cases i with
  | b64 src => cases src <;> rfl
  | _ => rfl

theorem status_of_step {i : Instr} {s t : State} {rest : List HostAccess}
    (hp : s.pending = .write 0x22 (encode i) :: rest) (h : step s = .next t) :
    t.status = s.statusAfter i := by
  rw [step_command hp, runCommand_legal (decode_encode i)] at h
  rw [status_of_exec h, statusAfter_putCmd]

/-- The nine command bytes (R58), command by command. -/
theorem encode_bytes : encode .nop = 0x00 ∧ encode .decode = 0x01 ∧ encode .dects = 0x02 ∧
    encode .decrnd = 0x03 ∧ encode (.b64 .ibuf) = 0x04 ∧ encode (.b64 .obuf) = 0x14 ∧
    encode .lookup = 0x05 ∧ encode .alpha = 0x06 ∧ encode .clr = 0x07 := by decide

/-! ### How a command ends (R104) -/

/-- A command but `NOP` leaves ERR 0, or its whole effect is that of one error. -/
theorem err_zero_or_raised_of_execKind {i : Instr} {s t : State} (h : ExecKind i s t) (hnop : i ≠ .nop) :
    t.errField.toNat = 0 ∨ ∃ e, t = s.raise e := by
  obtain ⟨hi, -⟩ | ⟨-, rfl⟩ | ⟨-, v, rfl⟩ | ⟨-, n, b, rfl⟩ | ⟨-, x, rfl⟩ | ⟨-, e, -, rfl⟩ |
    ⟨-, rfl⟩ := h
  · exact absurd hi hnop
  · exact .inl (errField_clear s)
  · exact .inl (errField_of_completed (setRes_status s v))
  · exact .inl (errField_of_completed (setDecoded_status s n b))
  · exact .inl (errField_of_completed (setText_status s x))
  · exact .inr ⟨e, rfl⟩
  · exact .inr ⟨_, rfl⟩

/-- The same for a write of any byte but `NOP`'s, legal or not. -/
theorem err_zero_or_raised_of_runCommand {v : Byte} {s t : State} (h : runCommand v s = .next t)
    (hnop : v ≠ 0x00) : t.errField.toNat = 0 ∨ ∃ e, t = (s.put .cmd v).raise e := by
  obtain ⟨i, hi, hx⟩ | ⟨-, rfl⟩ := runCommand_inv h
  · refine err_zero_or_raised_of_execKind (execKind_of_exec hx) ?_
    rintro rfl
    exact hnop (encode_of_decode hi).symm
  · exact .inr ⟨_, rfl⟩

/-! ### The statements -/

/-- Settles O50, by induction on the number of steps: every state has a next state. -/
theorem everyRunIsSafe : Obligations.EveryRunIsSafe := by
  intro s k
  induction k generalizing s with
  | zero => exact ⟨s, rfl⟩
  | succ k ih =>
    obtain ⟨t, ht⟩ := step_next s
    rw [run_succ ht]
    exact ih t

/-- Settles O54: an illegal byte raises before any other check, and for a legal one the chain, read at
the byte of its command, is the command's own checks. -/
theorem statusFollowsTheErrorPriority : Obligations.StatusFollowsTheErrorPriority := by
  intro s v rest hp
  obtain ⟨t, ht⟩ := step_next s
  refine ⟨t, ht, ?_⟩
  cases hlegal : legal v with
  | false =>
    rw [step_command hp, runCommand_of_illegal hlegal] at ht
    cases ht
    rfl
  | true =>
    obtain ⟨i, hi⟩ := (legal_iff_decodes v).1 hlegal
    obtain rfl := encode_of_decode hi
    rw [status_of_step hp ht]
    cases i with
    | b64 src => cases src <;> simp [encode_bytes, State.statusAfter]
    | decode => simp [encode_bytes, State.statusAfter, timedTextStatus]
    | dects => simp [encode_bytes, State.statusAfter, timedTextStatus]
    | decrnd => simp [encode_bytes, State.statusAfter, untimedTextStatus]
    | _ => simp [encode_bytes, State.statusAfter]

/-- Settles O55, by the checks that each command makes. -/
theorem errorCodesOfEachCommand : Obligations.ErrorCodesOfEachCommand := by
  intro s t
  refine ⟨fun h => ?_, fun h => ?_, fun h => ?_, fun src h => ?_, fun h => ?_, fun h => ?_, fun h => ?_⟩
  all_goals rw [State.errField, status_of_exec h]
  · rw [State.statusAfter, timedTextStatus]; split_ifs <;> decide
  · rw [State.statusAfter, timedTextStatus]; split_ifs <;> decide
  · rw [State.statusAfter, untimedTextStatus]; split_ifs <;> decide
  · cases src with
    | ibuf => rw [State.statusAfter]; split_ifs <;> decide
    | obuf => rw [State.statusAfter]; decide
  · rw [State.statusAfter]; decide
  · rw [State.statusAfter]; split_ifs <;> decide
  · rw [State.statusAfter]; decide

/-- Settles O56, by the two ways a command ends. -/
theorem noErrorLeavesAPartialResult : Obligations.NoErrorLeavesAPartialResult := by
  intro s t v rest hp hnop ht
  obtain hzero | ⟨e, rfl⟩ := err_zero_or_raised_of_runCommand ((step_command hp).symm.trans ht) hnop
  · rw [hzero]
    exact ⟨fun h => absurd h (by decide), fun h => absurd h (by decide)⟩
  · rw [errField_raise]
    cases e with
    | illegalCommand => exact ⟨fun h => absurd h (by decide), fun _ => rfl⟩
    | _ => exact ⟨fun _ => ⟨fun i => padded_above i (Nat.zero_le _), rfl⟩, fun h => absurd h (by decide)⟩

end Sys2Proof.Machine
end

section
/-! Reset and hazards (R112–R119): the three reset sources, the host's own lists along a run, and which
access can change which register. -/

namespace Sys2Proof.Machine

/-! ### Reset (R112) -/

/-- A step of any reset source gives every register its reset value and keeps the host's lists. -/
theorem step_resetSource {s : State} {x : HostAccess} {rest : List HostAccess}
    (hx : x = .reset .powerOn ∨ x = .reset .resetInput ∨ x = .write 0x22 0x07)
    (hp : s.pending = x :: rest) :
    step s = .next { State.reset with pending := rest, observed := s.observed } := by
  obtain rfl | rfl | rfl := hx
  · exact step_access hp
  · exact step_access hp
  · exact (step_command hp).trans (runCommand_clr _)

/-! ### The host's own lists -/

/-- The accesses that give the host a byte (R40). -/
def HostAccess.isRead : HostAccess → Bool
  | .read _ => true
  | .write _ _ | .reset _ => false

theorem hostLists_of_runCommand {v : Byte} {s t : State} (h : runCommand v s = .next t) :
    t.pending = s.pending ∧ t.observed = s.observed := by
  obtain ⟨i, -, hx⟩ | ⟨-, rfl⟩ := runCommand_inv h
  · obtain ⟨hpend, hobs⟩ := hostLists_of_execKind (execKind_of_exec hx)
    exact ⟨hpend.trans (putCmd_pending s v), hobs.trans (putCmd_observed s v)⟩
  · simp

/-- An access leaves the accesses behind it as they are, and gives the host a byte exactly when it is a
read. -/
theorem hostLists_of_performs {x : HostAccess} {s t : State} (h : Performs s x t) :
    t.pending = s.pending ∧ t.observed.length = s.observed.length + if x.isRead then 1 else 0 := by
  cases h with
  | read a => exact ⟨rfl, by simp [HostAccess.isRead]⟩
  | store a v r => exact ⟨put_pending s r v, congrArg _ (put_observed s r v)⟩
  | reserved => exact ⟨rfl, rfl⟩
  | command v t runs =>
    obtain ⟨hpend, hobs⟩ := hostLists_of_runCommand runs
    exact ⟨hpend, congrArg _ hobs⟩
  | reset => exact ⟨rfl, rfl⟩

theorem hostLists_of_step {s t : State} {x : HostAccess} {rest : List HostAccess}
    (hp : s.pending = x :: rest) (h : step s = .next t) :
    t.pending = rest ∧ t.observed.length = s.observed.length + if x.isRead then 1 else 0 :=
  hostLists_of_performs (performs_of_step hp h)

/-- A run of no more steps than accesses takes them off one by one, and the host gets one byte per
read. -/
theorem hostLists_of_run {s : State} {k : Nat} (hk : k ≤ s.pending.length) :
    ∃ t, core.run k s = .next t ∧ t.pending = s.pending.drop k ∧
      t.observed.length = s.observed.length + (s.pending.take k).countP HostAccess.isRead := by
  induction k generalizing s with
  | zero => exact ⟨s, rfl, by simp, by simp⟩
  | succ k ih =>
    cases hp : s.pending with
    | nil => simp [hp] at hk
    | cons x rest =>
      obtain ⟨u, hu⟩ := step_next s
      obtain ⟨hpend, hobs⟩ := hostLists_of_step hp hu
      have hle : k ≤ u.pending.length := by
        rw [hp] at hk
        rw [hpend]
        exact Nat.le_of_succ_le_succ hk
      obtain ⟨t, ht, htpend, htobs⟩ := ih hle
      refine ⟨t, (run_succ hu k).trans ht, ?_, ?_⟩
      · rw [htpend, hpend, List.drop_succ_cons]
      · rw [htobs, hobs, hpend, List.take_succ_cons, List.countP_cons]
        omega

/-! ### The access that changes a register (R118) -/

/-- The bytes whose write to `CMD` may write a register, `CMD` itself and `CLR` apart (R118). -/
def Reg.writtenByByte (v : Byte) : Reg → Prop
  | .obuf _ | .olen => v ∈ ([0x01, 0x02, 0x03] : List Byte)
  | .tbuf _ | .tlen => v ∈ ([0x04, 0x14] : List Byte)
  | .res => v ∈ ([0x05, 0x06] : List Byte)
  | .status => v ≠ 0x00
  | .ibuf _ | .ilen | .arg | .cmd => False

theorem writtenByByte_of_decoded {r : Reg} {v : Byte} (hr : r.decoded = true)
    (hv : v ∈ ([0x01, 0x02, 0x03] : List Byte)) : r.writtenByByte v := by
  cases r with
  | obuf | olen => exact hv
  | status => exact ne_of_mem_of_not_mem hv (by decide)
  | _ => cases hr

theorem writtenByByte_of_text {r : Reg} {v : Byte} (hr : r.text = true)
    (hv : v ∈ ([0x04, 0x14] : List Byte)) : r.writtenByByte v := by
  cases r with
  | tbuf | tlen => exact hv
  | status => exact ne_of_mem_of_not_mem hv (by decide)
  | _ => cases hr

theorem writtenByByte_of_scalar {r : Reg} {v : Byte} (hr : r.scalar = true)
    (hv : v ∈ ([0x05, 0x06] : List Byte)) : r.writtenByByte v := by
  cases r with
  | res => exact hv
  | status => exact ne_of_mem_of_not_mem hv (by decide)
  | _ => cases hr

/-- A command but `CLR` writes a register only by a byte that may write it. -/
theorem writtenByByte_of_writtenBy {i : Instr} {r : Reg} (hw : r.writtenBy i = true) (hclr : i ≠ .clr) :
    r.writtenByByte (encode i) := by
  cases i with
  | nop => cases hw
  | decode | dects | decrnd => exact writtenByByte_of_decoded hw (by decide)
  | b64 src => exact writtenByByte_of_text hw (by cases src <;> decide)
  | lookup | alpha => exact writtenByByte_of_scalar hw (by decide)
  | clr => exact absurd rfl hclr

/-- No command but `CLR` writes a register that the host can write (R37, R39). -/
theorem not_writtenByByte_of_writable {r : Reg} (hr : r.writable = true) (v : Byte) :
    ¬ r.writtenByByte v := by
  cases r with
  | ibuf | ilen | arg | cmd => exact id
  | _ => cases hr

theorem changed_of_runCommand {v : Byte} {s t : State} (h : runCommand v s = .next t) (hclr : v ≠ 0x07)
    {r : Reg} (hr : t.get r ≠ s.get r) : r = .cmd ∨ r.writtenByByte v := by
  by_cases hcmd : r = .cmd
  · exact .inl hcmd
  · rw [← get_put_other s .cmd r v hcmd] at hr
    obtain ⟨i, hi, hx⟩ | ⟨⟨why, hwhy⟩, rfl⟩ := runCommand_inv h
    · obtain rfl := encode_of_decode hi
      have hw : r.writtenBy i = true :=
        eq_true_of_ne_false (mt (get_of_execKind (execKind_of_exec hx)) hr)
      refine .inr (writtenByByte_of_writtenBy hw ?_)
      rintro rfl
      exact hclr rfl
    · have hstatus : r = .status := not_not.1 fun hne => hr (get_raise_illegal_other hne _)
      subst hstatus
      refine .inr ?_
      rintro rfl
      cases hwhy

/-- An access that changes a register, resets apart, is a host write to that register, which takes
writes, or a write to `CMD` of a byte that writes it. -/
theorem changed_of_performs {x : HostAccess} {s t : State} (h : Performs s x t)
    (hreset : ∀ q, x ≠ .reset q) (hclr : x ≠ .write 0x22 0x07) {r : Reg} (hr : t.get r ≠ s.get r) :
    (r.writable = true ∧ ∃ v, x = .write r.addr v) ∨ ∃ v, x = .write 0x22 v ∧ r.writtenByByte v := by
  cases h with
  | read a => exact absurd (by cases r <;> rfl) hr
  | store a v q found other =>
    obtain rfl : r = q := not_not.1 fun hne => hr (get_put_other s q r v hne)
    have hw : r.writable = true :=
      eq_true_of_ne_false fun hro => hr (congrArg (State.get · r) (put_readOnly s r v hro))
    exact .inl ⟨hw, v, by rw [addr_of_locate found]⟩
  | reserved => exact absurd rfl hr
  | command v t runs =>
    obtain rfl | hwrites := changed_of_runCommand runs (fun e => hclr (e ▸ rfl)) hr
    · exact .inl ⟨rfl, v, rfl⟩
    · exact .inr ⟨v, rfl, hwrites⟩
  | reset q => exact absurd rfl (hreset q)

/-- The writable registers but `CMD` are the operands, which stand at the addresses up to 0x21 (R37). -/
theorem operand_addr_le {r : Reg} (hr : r.writable = true) (hcmd : r ≠ .cmd) : r.addr.toNat ≤ 0x21 := by
  have all : ∀ a : Byte,
      (locate a).all (fun q => !q.writable || q == .cmd || a.toNat ≤ 0x21) = true := by decide
  simpa [hr, hcmd] using all r.addr

theorem exists_getElem_ne {n : Nat} {u w : Vector Byte n} (h : u ≠ w) : ∃ i : Fin n, u[i] ≠ w[i] := by
  by_contra hall
  push Not at hall
  exact h (Vector.ext fun i hi => hall ⟨i, hi⟩)

section
variable {s t : State} {x : HostAccess} (h : Performs s x t) (hreset : ∀ q, x ≠ .reset q)
  (hclr : x ≠ .write 0x22 0x07)
include h hreset hclr

/-- A changed read-only register names the byte that was written to `CMD` (R39). -/
theorem command_of_changed {r : Reg} (hro : r.writable = false) (hr : t.get r ≠ s.get r) :
    ∃ v, x = .write 0x22 v ∧ r.writtenByByte v := by
  obtain ⟨hw, -⟩ | hcommand := changed_of_performs h hreset hclr hr
  · exact absurd (hro.symm.trans hw) (by decide)
  · exact hcommand

/-- A changed operand register was written by the host (R41). -/
theorem write_of_operand_changed {r : Reg} (hw : r.writable = true) (hcmd : r ≠ .cmd)
    (hr : t.get r ≠ s.get r) : ∃ a v, x = .write a v ∧ a.toNat ≤ 0x21 := by
  obtain ⟨-, v, rfl⟩ | ⟨v, -, hv⟩ := changed_of_performs h hreset hclr hr
  · exact ⟨_, v, rfl, operand_addr_le hw hcmd⟩
  · exact absurd hv (not_writtenByByte_of_writable hw v)

end

/-! ### The statements -/

/-- Settles O15: the step that runs the command leaves the read as the next access. -/
theorem readAfterCommandSeesItsWholeResult : Obligations.ReadAfterCommandSeesItsWholeResult := by
  intro s t a v rest hp ht
  obtain ⟨hpend, hobs⟩ := hostLists_of_runCommand ((step_command hp).symm.trans ht)
  exact (run_succ ht 1).trans (hobs ▸ run_one (step_read hpend))

/-- Settles O51, by the run's lemma on the host's lists. -/
theorem programEndsAfterItsAccesses : Obligations.ProgramEndsAfterItsAccesses := by
  intro s k hk
  obtain ⟨t, ht, hpend, hobs⟩ := hostLists_of_run hk
  exact ⟨t, ht, hpend, hobs.trans (congrArg _ List.countP_eq_length_filter)⟩

/-- Settles O52: each clause is the inversion of an access at the registers that the clause names. -/
theorem resultsPersistUntilRewritten : Obligations.ResultsPersistUntilRewritten := by
  intro s t x rest hp ht hreset hclr
  have hx := performs_of_step hp ht
  refine ⟨fun hne => ?_, fun hne => ?_, fun hres => ?_, fun hstatus => ?_, ?_, fun hne => ?_⟩
  · obtain ⟨v, rfl, hv⟩ : ∃ v, x = .write 0x22 v ∧ Reg.olen.writtenByByte v := by
      obtain hobuf | holen := hne
      · obtain ⟨j, hj⟩ := exists_getElem_ne hobuf
        exact command_of_changed hx hreset hclr (r := .obuf j) rfl hj
      · exact command_of_changed hx hreset hclr rfl holen
    exact List.mem_map_of_mem hv
  · obtain ⟨v, rfl, hv⟩ : ∃ v, x = .write 0x22 v ∧ Reg.tlen.writtenByByte v := by
      obtain htbuf | htlen := hne
      · obtain ⟨j, hj⟩ := exists_getElem_ne htbuf
        exact command_of_changed hx hreset hclr (r := .tbuf j) rfl hj
      · exact command_of_changed hx hreset hclr rfl htlen
    exact List.mem_map_of_mem hv
  · obtain ⟨v, rfl, hv⟩ := command_of_changed hx hreset hclr (r := .res) rfl hres
    exact List.mem_map_of_mem hv
  · obtain ⟨v, rfl, hv⟩ := command_of_changed hx hreset hclr (r := .status) rfl hstatus
    exact ⟨v, hv, rfl⟩
  · rintro v hnop rfl
    exact done_of_runCommand ((step_command hp).symm.trans ht) hnop fun e => hclr (e ▸ rfl)
  · obtain hibuf | hilen | harg := hne
    · obtain ⟨j, hj⟩ := exists_getElem_ne hibuf
      exact write_of_operand_changed hx hreset hclr (r := .ibuf j) rfl nofun hj
    · exact write_of_operand_changed hx hreset hclr (r := .ilen) rfl nofun hilen
    · exact write_of_operand_changed hx hreset hclr (r := .arg) rfl nofun harg

/-- Settles O20: each source's step leaves the reset state, whose every address reads 0x00. -/
theorem allResetSourcesHaveTheSameEffect : Obligations.AllResetSourcesHaveTheSameEffect :=
  fun s _ rest hx hp => ⟨_, step_resetSource hx hp,
    fun a => (hostRead_congr State.reset rest s.observed a).trans (hostRead_reset a), rfl⟩

end Sys2Proof.Machine
end
